-- ==== Sys2Proof/Syntax.lean ====
section
/-! DEFINITION. The eight operations of the core, one constructor per row of spec/opcode_table.json. -/
namespace Sys2Proof

/-- The mode bit `S` of a command (00_scope R6): how the unit reads operands and result. -/
inductive Mode where
  /-- `S = 0` -/
  | unsigned
  /-- `S = 1`, two's complement -/
  | signed
  deriving DecidableEq, Repr

/-- The bit `S` itself (30_encoding R60). -/
def Mode.bit : Mode → Bool
  | .unsigned => false
  | .signed => true

/-- The mode a bit `S` selects (30_encoding R60). -/
def Mode.ofBit : Bool → Mode
  | false => .unsigned
  | true => .signed

/-- The operations of 30_encoding R61. The operands are no part of the command: they are always
`OPA` and `OPB` (R65), so the mode is the only field. -/
inductive Instr where
  /-- `ADD` (40_adder_subtractor R83) -/
  | add (m : Mode)
  /-- `SUB` (40_adder_subtractor R84) -/
  | sub (m : Mode)
  /-- `MUL.SEQ` (41_multipliers R104) -/
  | mulSeq (m : Mode)
  /-- `MUL.NAIVE` (41_multipliers R110) -/
  | mulNaive (m : Mode)
  /-- `MUL.BOOTH2` (41_multipliers R114) -/
  | mulBooth2 (m : Mode)
  /-- `MUL.BOOTH4` (41_multipliers R122) -/
  | mulBooth4 (m : Mode)
  /-- `DIV.REST` (42_dividers R147) -/
  | divRest (m : Mode)
  /-- `DIV.NREST` (42_dividers R152) -/
  | divNrest (m : Mode)
  deriving DecidableEq, Repr

/-- The mode field of an operation (30_encoding R64). -/
def Instr.mode : Instr → Mode
  | .add m => m
  | .sub m => m
  | .mulSeq m => m
  | .mulNaive m => m
  | .mulBooth2 m => m
  | .mulBooth4 m => m
  | .divRest m => m
  | .divNrest m => m

end Sys2Proof
end

