-- ==== Sys2Proof/Word.lean ====
section
/-! DEFINITION. The words of the core: bit patterns of a stated width (spec/00_scope.md R10). -/
namespace Sys2Proof

/-- A `w`-bit value, bit 0 the least significant (R10). Operands are `N` bits wide (R5). -/
abbrev Word (w : Nat) := BitVec w

/-- The command word: one format, five bits (30_encoding R60). -/
abbrev CmdWord := BitVec 5

/-- A double-width value: `N + N` is the spec's `2N` (10_state R24). -/
abbrev DWord (n : Nat) := BitVec (n + n)

end Sys2Proof
end

