-- ==== Sys2Proof/Machine/Operands.lean ====
section
/-! DEFINITION. How bit patterns are read, loaded, extended, negated and shifted (spec/00_scope.md R10 to
R14), for every width. -/
namespace Sys2Proof.Machine

/-- `val(v, w, S)`: the logical value of a pattern under a mode (00_scope R11). -/
def val {w : Nat} (m : Mode) (v : BitVec w) : Int :=
  if m.bit && v.msb then (v.toNat : Int) - 2 ^ w else v.toNat

/-- `from_int(v, w)`: the residue of any integer mod `2^w` (00_scope R12). -/
def fromInt (w : Nat) (v : Int) : BitVec w := BitVec.ofInt w v

/-- `MIN_w`: a one followed by zeros (00_scope R11). -/
def minWord (w : Nat) : BitVec w := BitVec.ofNat w (2 ^ (w - 1))

/-- `zext_m(v)` (00_scope R13), for `m` at least the width of `v`. -/
def zext {w : Nat} (m : Nat) (v : BitVec w) : BitVec m := v.setWidth m

/-- `sext_m(v)` (00_scope R13), for `m` at least the width of `v`. -/
def sext {w : Nat} (m : Nat) (v : BitVec w) : BitVec m := v.signExtend m

/-- `ext_m(v, S)` (00_scope R13). -/
def ext {w : Nat} (n : Nat) (m : Mode) (v : BitVec w) : BitVec n :=
  match m with
  | .unsigned => zext n v
  | .signed => sext n v

/-- `neg_w(v)`: complement plus one (00_scope R13). -/
def neg {w : Nat} (v : BitVec w) : BitVec w := ~~~v + 1#w

/-- `sgn_w(v, S)`: `S` and the top bit (00_scope R13). -/
def sgn {w : Nat} (m : Mode) (v : BitVec w) : Bool := m.bit && v.msb

/-- `mag_w(v, S)`: the magnitude as an unsigned value (00_scope R13). -/
def mag {w : Nat} (m : Mode) (v : BitVec w) : BitVec w := if sgn m v then neg v else v

/-- `neg_w(v)` where a sign bit says so, else `v` (41_multipliers R103, 42_dividers R143). -/
def negIf {w : Nat} (c : Bool) (v : BitVec w) : BitVec w := if c then neg v else v

/-- `v << k` at the width of `v` (00_scope R14). -/
def shl {w : Nat} (v : BitVec w) (k : Nat) : BitVec w := v <<< k

/-- `v >> k`, logical (00_scope R14). -/
def shr {w : Nat} (v : BitVec w) (k : Nat) : BitVec w := v >>> k

/-- `asr_k(v)`, arithmetic (00_scope R14). -/
def asr {w : Nat} (v : BitVec w) (k : Nat) : BitVec w := v.sshiftRight k

/-- `RES` made of its halves (10_state R24): `HI` in the upper bits. -/
def pair {n : Nat} (hi lo : Word n) : DWord n := hi ++ lo

/-- `HI`, bits `2N-1` to `N` of `RES` (10_state R24). -/
def hiHalf {n : Nat} (r : DWord n) : Word n := r.extractLsb' n n

/-- `LO`, bits `N-1` to `0` of `RES` (10_state R24). -/
def loHalf {n : Nat} (r : DWord n) : Word n := r.extractLsb' 0 n

/-- The number whose bits are listed, bit 0 first (00_scope R10). -/
def bitsToNat : List Bool → Nat
  | [] => 0
  | b :: bs => b.toNat + 2 * bitsToNat bs

/-- `k` steps of Level S (00_scope R15): each step acts on what the one before it left. -/
def iterate {α : Type} (f : α → α) : Nat → α → α
  | 0, x => x
  | k + 1, x => f (iterate f k x)

/-- The contents after each of the first `k` steps, one element per step (00_scope R8). -/
def traceOf {α : Type} (f : α → α) : Nat → α → List α
  | 0, _ => []
  | k + 1, x => traceOf f k x ++ [iterate f (k + 1) x]

end Sys2Proof.Machine
end

