-- ==== Sys2Proof/Machine/Flags.lean ====
section
/-! DEFINITION. The register FLAGS and every flag computation of the spec (10_state R26, R27). -/
namespace Sys2Proof.Machine

/-- `FLAGS` from its four bits: `C`, `V`, `NG`, `Z` at positions 0 to 3 (10_state R26). -/
def packFlags (c v ng z : Bool) : BitVec 4 :=
  BitVec.ofBool z ++ BitVec.ofBool ng ++ BitVec.ofBool v ++ BitVec.ofBool c

/-- `C`, carry_out (R26). -/
def flagC (f : BitVec 4) : Bool := f.getLsbD 0

/-- `V`, overflow (R26). -/
def flagV (f : BitVec 4) : Bool := f.getLsbD 1

/-- `NG`, negative (R26). -/
def flagNG (f : BitVec 4) : Bool := f.getLsbD 2

/-- `Z`, zero (R26). -/
def flagZ (f : BitVec 4) : Bool := f.getLsbD 3

/-- `NG <- S & top bit` of the primary result (R27). -/
def negFlag {w : Nat} (m : Mode) (v : BitVec w) : Bool := m.bit && v.msb

/-- `Z`: every bit of the primary result is zero (R27). -/
def zeroFlag {w : Nat} (v : BitVec w) : Bool := v == 0#w

/-- The integer lies in the range of a `w`-bit value under the mode (00_scope R11). -/
def fits (w : Nat) (m : Mode) (x : Int) : Bool :=
  match m with
  | .unsigned => decide (0 ≤ x ∧ x < 2 ^ w)
  | .signed => decide (-2 ^ (w - 1) ≤ x ∧ x < 2 ^ (w - 1))

/-- Flags of `ADD` and `SUB` from the chain's top carries and its sum (40_adder_subtractor R85). -/
def adderFlags {n : Nat} (m : Mode) (cIntoMsb cOut : Bool) (sum : Word n) : BitVec 4 :=
  packFlags cOut (cIntoMsb ^^ cOut) (negFlag m sum) (zeroFlag sum)

/-- `V` of a multiply: the true product does not fit `2N` bits in the mode (41_multipliers R102). -/
def mulOverflow {n : Nat} (m : Mode) (a b : Word n) : Bool := !(fits (n + n) m (val m a * val m b))

/-- Flags of every multiply, from the whole product (41_multipliers R102). -/
def mulFlags {n : Nat} (m : Mode) (a b : Word n) (res : DWord n) : BitVec 4 :=
  packFlags false (mulOverflow m a b) (negFlag m res) (zeroFlag res)

/-- `V` of a divide: most negative divided by minus one (42_dividers R144). -/
def divOverflow {n : Nat} (m : Mode) (a b : Word n) : Bool :=
  m.bit && (a == minWord n) && (b == BitVec.allOnes n)

/-- Flags of every successful divide, from the quotient as written (42_dividers R145). -/
def divFlags {n : Nat} (m : Mode) (a b quo : Word n) : BitVec 4 :=
  packFlags false (divOverflow m a b) (negFlag m quo) (zeroFlag quo)

end Sys2Proof.Machine
end

