-- ==== Sys2Proof/Config.lean ====
section
/-! DEFINITION. What an instance of the core fixes: the width `N` (spec/00_scope.md R5) and the
latencies (R7). Both are plain data, so that every instance is covered and a run can be evaluated. -/
namespace Sys2Proof

/-- The width `N` of an instance, a positive integer (00_scope R5): no instance has `N < 1`
(60_exceptions R174), so the proof is part of the value. -/
structure Width where
  bits : Nat
  pos : 0 < bits
  deriving DecidableEq, Repr

/-- `configure` of 60_exceptions R174: `none` is `InvalidConfig`, the answer for every width below 1;
no width is unsupported. -/
def configure (width : Int) : Option Width :=
  if h : 0 < width.toNat then some ⟨width.toNat, h⟩ else none

/-- One entry of an instance's latency table: a command word with its operands, and how many edges
beyond the first it takes (70_reset_and_hazards R200). -/
structure LatencyEntry where
  cmd : CmdWord
  a : Nat
  b : Nat
  extra : Nat
  deriving DecidableEq, Repr

/-- `LATENCY(op)` of an instance (00_scope R7): any positive number of edges, possibly another for each
operation and operand pair (R200). A table with a default represents every such function, there
being finitely many command words and operand pairs at a width. -/
structure Latency where
  extra : Nat
  entries : List LatencyEntry
  deriving DecidableEq, Repr

end Sys2Proof
end

