-- ==== Sys2Proof/Machine/State.lean ====
section
/-! DEFINITION. The state of the core: every register of spec/10_state.md, the instance's parameters, and the
input ports. Plain data. -/
namespace Sys2Proof.Machine

/-- The outcome code of an operation (10_state R28, 60_exceptions R170). Code 3 is never written and has
no constructor (93_implementation_defined U15). -/
inductive Status where
  | ok
  | divisionByZero
  | illegalCommand
  deriving DecidableEq, Repr

/-- The registers whose reading can meet "holds no value" (10_state R44). -/
inductive RegName where
  | opa
  | opb
  | cmd
  | res
  | flags
  | status
  | busy
  | done
  deriving DecidableEq, Repr

/-! ### Working registers (Level S state), one type per unit (93_implementation_defined U13) -/

/-- Adder/subtractor (10_state R36). `c` lists the carries computed so far, `c[0]` first, and `sum` the bits of
`SUM` computed so far, bit 0 first; `i` is the next bit position. -/
structure AdderRegs (N : Nat) where
  x : Word N
  y : Word N
  c : List Bool
  sum : List Bool
  i : Nat
  deriving DecidableEq, Repr

/-- Sequential shift-add multiplier (10_state R37). -/
structure SeqRegs (N : Nat) where
  acc : DWord N
  mcand : DWord N
  mplier : Word N
  sgn : Bool
  i : Nat
  deriving DecidableEq, Repr

/-- Naive partial-product multiplier (10_state R38): `pp` lists the partial products computed so far, `PP[0]`
first; `sum` is written after all of them. `ma`, `mb` are `MA`, `MB` of 41_multipliers R110. -/
structure NaiveRegs (N : Nat) where
  ma : Word N
  mb : Word N
  pp : List (DWord N)
  sum : Option (DWord N)
  sgn : Bool
  i : Nat
  deriving DecidableEq, Repr

/-- Booth radix-2 multiplier (10_state R39). `t` holds no value before the first step. -/
structure Booth2Regs (N : Nat) where
  me : BitVec (N + 1)
  a : Word N
  q : Word N
  qm1 : Bool
  t : Option (BitVec (N + 1))
  i : Nat
  deriving DecidableEq, Repr

/-- `K = ceil(N/2)`, the steps of the radix-4 multiplier (41_multipliers R124). -/
abbrev booth4Steps (N : Nat) : Nat := (N + 1) / 2

/-- `L = 2K`, the width of its multiplier register (41_multipliers R124). -/
abbrev booth4Len (N : Nat) : Nat := 2 * booth4Steps N

/-- Booth radix-4 multiplier (10_state R40). -/
structure Booth4Regs (N : Nat) where
  me : BitVec (N + 2)
  a : Word N
  q : BitVec (booth4Len N)
  qm1 : Bool
  t : Option (BitVec (N + 2))
  i : Nat
  deriving DecidableEq, Repr

/-- Restoring divider (10_state R41). -/
structure RestRegs (N : Nat) where
  r : Word N
  q : Word N
  d : Word N
  t : Option (BitVec (N + 1))
  sa : Bool
  sb : Bool
  i : Nat
  deriving DecidableEq, Repr

/-- Non-restoring divider (10_state R42): `r` has its sign in bit `N`. -/
structure NrestRegs (N : Nat) where
  r : BitVec (N + 1)
  q : Word N
  d : Word N
  sa : Bool
  sb : Bool
  i : Nat
  deriving DecidableEq, Repr

/-- The working registers of the unit that runs; those of the others hold no value (10_state R20, R44). -/
inductive Work (N : Nat) where
  | adder (r : AdderRegs N)
  | seq (r : SeqRegs N)
  | naive (r : NaiveRegs N)
  | booth2 (r : Booth2Regs N)
  | booth4 (r : Booth4Regs N)
  | rest (r : RestRegs N)
  | nrest (r : NrestRegs N)
  deriving DecidableEq, Repr

/-- The input ports as the host drives them at one rising edge of `clk` (10_state R30). -/
structure PortIn (N : Nat) where
  rst : Bool
  start : Bool
  cmd : CmdWord
  aIn : Word N
  bIn : Word N
  deriving DecidableEq, Repr

/-- The registers of an instance of width `N` (10_state R20 to R29). `none` is the spec's own state
"holds no value" (R44, R46, U7), entered at reset, at acceptance and after a failure: no bit pattern
is chosen for it (log 3). -/
structure Regs (N : Nat) where
  /-- `BUSY` (R29); holds no value before the first reset only (70_reset_and_hazards R192) -/
  busy : Option Bool
  /-- `DONE` (R29), likewise -/
  done : Option Bool
  /-- `OPA` (R21) -/
  opa : Option (Word N)
  /-- `OPB` (R22) -/
  opb : Option (Word N)
  /-- `CMD` (R23) -/
  cmd : Option CmdWord
  /-- `RES`, that is `HI` above `LO` (R24) -/
  res : Option (DWord N)
  /-- `FLAGS`: bit 0 `C`, bit 1 `V`, bit 2 `NG`, bit 3 `Z` (R26) -/
  flags : Option (BitVec 4)
  /-- `STATUS` (R28) -/
  status : Option Status
  /-- the working registers (R36 to R43) -/
  work : Option (Work N)
  /-- the model's own: edges until the command in flight completes (R32, log 2) -/
  edgesLeft : Nat
  deriving DecidableEq, Repr

/-- The machine: the instance's parameters, which no step changes, what the host drives at the coming
edges (log 4), and the registers. -/
structure State where
  /-- `N` (00_scope R5), log 1 -/
  width : Width
  /-- `LATENCY(op)` (00_scope R7), log 2 -/
  latency : Latency
  /-- the input ports at the coming edges, the next edge first -/
  inputs : List (PortIn width.bits)
  regs : Regs width.bits
  deriving DecidableEq, Repr

/-- The width of the instance as a number. -/
abbrev State.N (s : State) : Nat := s.width.bits

/-- Why the machine stops. -/
inductive Fault where
  /-- Raised by a unit or by the sequencing when it reads a register that holds no value (10_state R44: "an option
  type, or a fault on read"). No state reached from reset raises it. Safe: the machine stops where
  the spec defines nothing. -/
  | holdsNoValue (r : RegName)
  deriving DecidableEq, Repr

/-- Why a request is given no step. -/
inductive Refusal where
  /-- An instruction without a meaning in the model; no arm of `exec` answers so. Safe. -/
  | notModelled (mnemonic : String)
  /-- `start` while `BUSY = 1`: "A model gives such a request no step (it refuses it)"
  (70_reset_and_hazards R194). Raised by the edge. Safe (log 7). -/
  | startWhileBusy
  /-- A command before the first reset edge (70_reset_and_hazards R192, U10). Raised by the edge. Safe (log 7). -/
  | commandBeforeReset
  /-- A host read of an output that holds no value or is not valid (70_reset_and_hazards R196, U7). Raised by the
  output ports, never by a step. Safe. -/
  | readOfNoValue (r : RegName)
  deriving DecidableEq, Repr

/-- The registers after a reset edge (10_state R46, 70_reset_and_hazards R190). -/
def Regs.reset (N : Nat) : Regs N :=
  { busy := some false, done := some false, opa := none, opb := none, cmd := none, res := none,
    flags := none, status := none, work := none, edgesLeft := 0 }

/-- The registers before the first reset: every one holds no value (70_reset_and_hazards R192). -/
def Regs.powerUp (N : Nat) : Regs N :=
  { busy := none, done := none, opa := none, opb := none, cmd := none, res := none,
    flags := none, status := none, work := none, edgesLeft := 0 }

/-- Any instance of the core right after reset (10_state R46). -/
def State.resetOf (n : Width) (l : Latency) : State :=
  { width := n, latency := l, inputs := [], regs := Regs.reset n.bits }

/-- Any instance at power-up, before its first reset (70_reset_and_hazards R192). -/
def State.powerUp (n : Width) (l : Latency) : State :=
  { width := n, latency := l, inputs := [], regs := Regs.powerUp n.bits }

/-- The machine right after reset (R46), as the instance of width 8 in which every operation takes one edge:
the spec leaves both parameters open (DESIGN CHOICE, log 1, log 2). -/
def State.reset : State := State.resetOf ⟨8, by decide⟩ ⟨0, []⟩

end Sys2Proof.Machine
end

