-- ==== Sys2Proof/Machine/Ops.lean ====
section
/-! DEFINITION. The named operations over the registers: acceptance, completion, failure, reset (spec/10_state.md
R31, R32, R46; spec/60_exceptions.md R177), and the sampling of the input ports. -/
namespace Sys2Proof.Machine

/-- The outcome of an operation at Level O (00_scope R8). -/
inductive OpOutcome (N : Nat) where
  | ok (res : DWord N) (flags : BitVec 4)
  | divisionByZero
  | illegalCommand
  deriving DecidableEq, Repr

/-- The codes of `STATUS` (10_state R28, 60_exceptions R170). -/
def Status.code : Status → BitVec 2
  | .ok => 0#2
  | .divisionByZero => 1#2
  | .illegalCommand => 2#2

/-- The status an outcome is recorded with (60_exceptions R170). -/
def OpOutcome.status {N : Nat} : OpOutcome N → Status
  | .ok _ _ => .ok
  | .divisionByZero => .divisionByZero
  | .illegalCommand => .illegalCommand

/-- `LATENCY(op)` for a command word and operands: a positive number of edges (70_reset_and_hazards R200). -/
def latencyEdges {N : Nat} (l : Latency) (cmd : CmdWord) (a b : Word N) : Nat :=
  match l.entries.find? (fun e => e.cmd == cmd && e.a == a.toNat && e.b == b.toNat) with
  | some e => e.extra + 1
  | none => l.extra + 1

/-- Accepting a command (10_state R31): operands and command are latched, the core runs, and no earlier
result, flag or status is held any more. -/
def Regs.accepted {N : Nat} (l : Latency) (cmd : CmdWord) (a b : Word N) : Regs N :=
  { busy := some true, done := some false, opa := some a, opb := some b, cmd := some cmd,
    res := none, flags := none, status := none, work := none, edgesLeft := latencyEdges l cmd a b }

/-- Completion with a result (10_state R32, the case `Ok`): `RES`, `FLAGS`, `STATUS` at one edge; the
working registers hold no value any more (R44). -/
def Regs.succeed {N : Nat} (r : Regs N) (res : DWord N) (flags : BitVec 4) : Regs N :=
  { r with busy := some false, done := some true, res := some res, flags := some flags,
           status := some .ok, work := none, edgesLeft := 0 }

/-- A failure, the core's only kind of exception (60_exceptions R177): it writes `STATUS`, sets `DONE`,
clears `BUSY`, leaves `RES` and `FLAGS` holding no value, keeps `OPA`, `OPB`, `CMD`, and redirects
nothing. There is no return from it (R178): the next command is accepted as after a success. -/
def Regs.fail {N : Nat} (r : Regs N) (code : Status) : Regs N :=
  { r with busy := some false, done := some true, res := none, flags := none,
           status := some code, work := none, edgesLeft := 0 }

/-- Completion with an outcome (10_state R32). -/
def Regs.finish {N : Nat} (r : Regs N) (o : OpOutcome N) : Regs N :=
  match o with
  | .ok res flags => r.succeed res flags
  | .divisionByZero => r.fail .divisionByZero
  | .illegalCommand => r.fail .illegalCommand

/-- The machine with other registers. -/
def State.withRegs (s : State) (r : Regs s.width.bits) : State := { s with regs := r }

/-- The machine completes an operation whose Level O function is `f` on the latched operands (R32). An operand that
holds no value faults on the read, as 10_state R44 and 93_implementation_defined U7 say; no run reaches that,
since acceptance latches both (R31). -/
def State.complete (s : State)
    (f : Word s.width.bits → Word s.width.bits → OpOutcome s.width.bits) :
    Host.Outcome State Fault Refusal :=
  match s.regs.opa, s.regs.opb with
  | some a, some b => .next (s.withRegs (s.regs.finish (f a b)))
  | none, _ => .fault (.holdsNoValue .opa)
  | some _, none => .fault (.holdsNoValue .opb)

/-- What the host drives when it does nothing (log 4): no reset and no request. -/
def PortIn.idle (N : Nat) : PortIn N :=
  { rst := false, start := false, cmd := 0#5, aIn := 0#N, bIn := 0#N }

/-- A request: `start` with a command word and operands (10_state R31). -/
def PortIn.request {N : Nat} (cmd : CmdWord) (a b : Word N) : PortIn N :=
  { rst := false, start := true, cmd := cmd, aIn := a, bIn := b }

/-- The input ports at the next edge (10_state R30, log 4). -/
def State.sample (s : State) : PortIn s.width.bits := s.inputs.headD (PortIn.idle s.width.bits)

/-- The machine past the sampling of the next edge. -/
def State.pastSample (s : State) : State := { s with inputs := s.inputs.tail }

/-- The core as a command leaves it one edge before its completion, with nothing requested at that edge: the
state in which the next edge runs the command `cmd` (log 10). Operands already latched are kept. -/
def State.placeCommand (s : State) (cmd : CmdWord) : State :=
  { s with
    inputs := PortIn.idle s.width.bits :: s.inputs
    regs :=
      { Regs.accepted s.latency cmd (s.regs.opa.getD 1) (s.regs.opb.getD 1) with edgesLeft := 1 } }

end Sys2Proof.Machine
end

