-- ==== Sys2Proof/Machine/AddSub.lean ====
section
/-! DEFINITION. The adder/subtractor: ADD and SUB (spec/40_adder_subtractor.md). -/
namespace Sys2Proof.Machine

/-- The full-adder cell `FA(x, y, ci) = (s, co)` (40_adder_subtractor R81). -/
def fullAdder (x y ci : Bool) : Bool × Bool :=
  (x ^^ y ^^ ci, (x && y) || (x && ci) || (y && ci))

/-- The chain before its first bit position: `c[0]` is the carry-in (40_adder_subtractor R82). -/
def AdderRegs.start {N : Nat} (x y : Word N) (cin : Bool) : AdderRegs N :=
  { x := x, y := y, c := [cin], sum := [], i := 0 }

/-- One bit position of the chain (40_adder_subtractor R82). -/
def AdderRegs.step {N : Nat} (r : AdderRegs N) : AdderRegs N :=
  let p := fullAdder (r.x.getLsbD r.i) (r.y.getLsbD r.i) (r.c.getLastD false)
  { r with sum := r.sum ++ [p.1], c := r.c ++ [p.2], i := r.i + 1 }

/-- `CHAIN(X, Y, cin)`: all `N` bit positions (40_adder_subtractor R82). -/
def chain {N : Nat} (x y : Word N) (cin : Bool) : AdderRegs N :=
  iterate AdderRegs.step N (AdderRegs.start x y cin)

/-- `c[k]` (10_state R36). -/
def AdderRegs.carry {N : Nat} (r : AdderRegs N) (k : Nat) : Bool := r.c.getD k false

/-- `SUM` as a word (10_state R36). -/
def AdderRegs.sumWord {N : Nat} (r : AdderRegs N) : Word N := BitVec.ofNat N (bitsToNat r.sum)

/-- Result and flags of the family from a finished chain (40_adder_subtractor R80, R85). -/
def adderOutcome {N : Nat} (m : Mode) (r : AdderRegs N) : OpOutcome N :=
  .ok (pair 0 r.sumWord) (adderFlags m (r.carry (N - 1)) (r.carry N) r.sumWord)

/-- The chain of `ADD` before its first step: inputs `OPA`, `OPB`, carry-in 0 (40_adder_subtractor R83). -/
def addStart {N : Nat} (a b : Word N) : AdderRegs N := AdderRegs.start a b false

/-- The chain of `SUB` before its first step: inputs `OPA`, the complement of `OPB`, carry-in 1
(40_adder_subtractor R84, 90_conflicts C1). -/
def subStart {N : Nat} (a b : Word N) : AdderRegs N := AdderRegs.start a (~~~b) true

/-- `ADD` at Level O (40_adder_subtractor R83). -/
def addOutcome {N : Nat} (m : Mode) (a b : Word N) : OpOutcome N :=
  adderOutcome m (chain a b false)

/-- `SUB` at Level O (40_adder_subtractor R84). -/
def subOutcome {N : Nat} (m : Mode) (a b : Word N) : OpOutcome N :=
  adderOutcome m (chain a (~~~b) true)

/-- `ADD` (40_adder_subtractor R83). -/
def execAdd (m : Mode) (s : State) : Host.Outcome State Fault Refusal := s.complete (addOutcome m)

/-- `SUB` (40_adder_subtractor R84). -/
def execSub (m : Mode) (s : State) : Host.Outcome State Fault Refusal := s.complete (subOutcome m)

end Sys2Proof.Machine
end

