-- ==== Sys2Proof/Machine/Divide.lean ====
section
/-! DEFINITION. The two dividers (spec/42_dividers.md). -/
namespace Sys2Proof.Machine

/-- The sign fix-up of both dividers and the flags: quotient negated when the operands' signs differ,
remainder when the dividend is negative (42_dividers R143, R145). -/
def divOutcome {N : Nat} (m : Mode) (a b quo rem : Word N) : OpOutcome N :=
  let lo := negIf (sgn m a ^^ sgn m b) quo
  let hi := negIf (sgn m a) rem
  .ok (pair hi lo) (divFlags m a b lo)

/-! ### DIV.REST -/

/-- Before the loop of `DIV.REST` (42_dividers R142, R147). -/
def RestRegs.start {N : Nat} (m : Mode) (a b : Word N) : RestRegs N :=
  { r := 0, q := mag m a, d := mag m b, t := none, sa := sgn m a, sb := sgn m b, i := 0 }

/-- One step of `DIV.REST`: shift `R`, `Q` left by one, subtract on trial, keep or restore (42_dividers
R147; the net effect of the restore, R148, log 8). -/
def RestRegs.step {N : Nat} (s : RestRegs N) : RestRegs N :=
  let r := (s.r ++ s.q).extractLsb' (N - 1) N
  let q := shl s.q 1
  let t := zext (N + 1) r - zext (N + 1) s.d
  if t.getLsbD N then { s with r := r, q := q, t := some t, i := s.i + 1 }
  else { s with r := t.setWidth N, q := q ||| 1#N, t := some t, i := s.i + 1 }

/-- The loop of `DIV.REST`, `N` steps (42_dividers R147). -/
def restRun {N : Nat} (m : Mode) (a b : Word N) : RestRegs N :=
  iterate RestRegs.step N (RestRegs.start m a b)

/-- `DIV.REST` at Level O: the zero test comes first (42_dividers R141, R147). -/
def divRestOutcome {N : Nat} (m : Mode) (a b : Word N) : OpOutcome N :=
  if b == 0#N then .divisionByZero
  else divOutcome m a b (restRun m a b).q (restRun m a b).r

/-- `DIV.REST` (42_dividers R147). -/
def execDivRest (m : Mode) (s : State) : Host.Outcome State Fault Refusal :=
  s.complete (divRestOutcome m)

/-! ### DIV.NREST -/

/-- Before the loop of `DIV.NREST` (42_dividers R142, R152). -/
def NrestRegs.start {N : Nat} (m : Mode) (a b : Word N) : NrestRegs N :=
  { r := 0, q := mag m a, d := mag m b, sa := sgn m a, sb := sgn m b, i := 0 }

/-- One step of `DIV.NREST`: shift, then subtract where the remainder was not negative and add where it
was; the bit recorded says that the remainder after it is not negative (42_dividers R152, R153). -/
def NrestRegs.step {N : Nat} (s : NrestRegs N) : NrestRegs N :=
  let wasNeg := s.r.getLsbD N
  let shifted := (s.r ++ s.q).extractLsb' (N - 1) (N + 1)
  let q := shl s.q 1
  let r := if wasNeg then shifted + zext (N + 1) s.d else shifted - zext (N + 1) s.d
  { s with r := r, q := if r.getLsbD N then q else q ||| 1#N, i := s.i + 1 }

/-- The final correction of the remainder (42_dividers R154). -/
def NrestRegs.corrected {N : Nat} (s : NrestRegs N) : Word N :=
  (if s.r.getLsbD N then s.r + zext (N + 1) s.d else s.r).setWidth N

/-- The loop of `DIV.NREST`, `N` steps (42_dividers R152). -/
def nrestRun {N : Nat} (m : Mode) (a b : Word N) : NrestRegs N :=
  iterate NrestRegs.step N (NrestRegs.start m a b)

/-- `DIV.NREST` at Level O: the zero test comes first (42_dividers R141, R152). -/
def divNrestOutcome {N : Nat} (m : Mode) (a b : Word N) : OpOutcome N :=
  if b == 0#N then .divisionByZero
  else divOutcome m a b (nrestRun m a b).q (nrestRun m a b).corrected

/-- `DIV.NREST` (42_dividers R152). -/
def execDivNrest (m : Mode) (s : State) : Host.Outcome State Fault Refusal :=
  s.complete (divNrestOutcome m)

end Sys2Proof.Machine
end

