-- ==== Sys2Proof/Machine/Multiply.lean ====
section
/-! DEFINITION. The four multipliers (spec/41_multipliers.md). -/
namespace Sys2Proof.Machine

/-- `STATUS <- Ok` with the product and the flags of every multiply (41_multipliers R100, R102). -/
def mulOutcome {N : Nat} (m : Mode) (a b : Word N) (res : DWord N) : OpOutcome N :=
  .ok res (mulFlags m a b res)

/-- `SGN` of the sign-and-magnitude wrapper (41_multipliers R103). -/
def productSign {N : Nat} (m : Mode) (a b : Word N) : Bool := sgn m a ^^ sgn m b

/-! ### MUL.SEQ -/

/-- Before the loop of `MUL.SEQ` (41_multipliers R104). -/
def SeqRegs.start {N : Nat} (m : Mode) (a b : Word N) : SeqRegs N :=
  { acc := 0, mcand := zext (N + N) (mag m a), mplier := mag m b, sgn := productSign m a b, i := 0 }

/-- One step of `MUL.SEQ` (41_multipliers R104). -/
def SeqRegs.step {N : Nat} (r : SeqRegs N) : SeqRegs N :=
  { r with
    acc := if r.mplier.getLsbD 0 then r.acc + r.mcand else r.acc
    mcand := shl r.mcand 1
    mplier := shr r.mplier 1
    i := r.i + 1 }

/-- `RES` from the finished registers (41_multipliers R103). -/
def SeqRegs.product {N : Nat} (r : SeqRegs N) : DWord N := negIf r.sgn r.acc

/-- The loop of `MUL.SEQ`, `N` steps (41_multipliers R104). -/
def seqRun {N : Nat} (m : Mode) (a b : Word N) : SeqRegs N :=
  iterate SeqRegs.step N (SeqRegs.start m a b)

/-- `MUL.SEQ` at Level O (41_multipliers R104). -/
def mulSeqOutcome {N : Nat} (m : Mode) (a b : Word N) : OpOutcome N :=
  mulOutcome m a b (seqRun m a b).product

/-- `MUL.SEQ` (41_multipliers R104). -/
def execMulSeq (m : Mode) (s : State) : Host.Outcome State Fault Refusal :=
  s.complete (mulSeqOutcome m)

/-! ### MUL.NAIVE -/

/-- Before the partial products of `MUL.NAIVE` (41_multipliers R110). -/
def NaiveRegs.start {N : Nat} (m : Mode) (a b : Word N) : NaiveRegs N :=
  { ma := mag m a, mb := mag m b, pp := [], sum := none, sgn := productSign m a b, i := 0 }

/-- `PP[i]` (41_multipliers R110). -/
def partialProduct {N : Nat} (ma mb : Word N) (i : Nat) : DWord N :=
  if mb.getLsbD i then shl (zext (N + N) ma) i else 0

/-- One step of `MUL.NAIVE`: the next partial product, or, after all `N`, their sum from the left
(41_multipliers R110, log 8). -/
def NaiveRegs.step {N : Nat} (r : NaiveRegs N) : NaiveRegs N :=
  if r.i < N then { r with pp := r.pp ++ [partialProduct r.ma r.mb r.i], i := r.i + 1 }
  else { r with sum := some (r.pp.foldl (· + ·) 0) }

/-- `RES` from the finished registers (41_multipliers R103, R110); there is none before the sum. -/
def NaiveRegs.product {N : Nat} (r : NaiveRegs N) : Option (DWord N) := r.sum.map (negIf r.sgn)

/-- The steps of `MUL.NAIVE`: `N` partial products, then one sum (70_reset_and_hazards R199). -/
def naiveRun {N : Nat} (m : Mode) (a b : Word N) : NaiveRegs N :=
  iterate NaiveRegs.step (N + 1) (NaiveRegs.start m a b)

/-- `SUM` of `MUL.NAIVE` (41_multipliers R110). -/
def naiveSum {N : Nat} (m : Mode) (a b : Word N) : DWord N :=
  (naiveRun m a b).pp.foldl (· + ·) 0

/-- `MUL.NAIVE` at Level O (41_multipliers R110). -/
def mulNaiveOutcome {N : Nat} (m : Mode) (a b : Word N) : OpOutcome N :=
  mulOutcome m a b (negIf (productSign m a b) (naiveSum m a b))

/-- `MUL.NAIVE` (41_multipliers R110). -/
def execMulNaive (m : Mode) (s : State) : Host.Outcome State Fault Refusal :=
  s.complete (mulNaiveOutcome m)

/-! ### MUL.BOOTH2 -/

/-- Before the loop of `MUL.BOOTH2` (41_multipliers R114). -/
def Booth2Regs.start {N : Nat} (m : Mode) (a b : Word N) : Booth2Regs N :=
  { me := ext (N + 1) m a, a := 0, q := b, qm1 := false, t := none, i := 0 }

/-- The adder output `T` of a step: window `01` adds, `10` subtracts (41_multipliers R114, R115). -/
def booth2Sum {N : Nat} (me : BitVec (N + 1)) (a : Word N) (q0 qm1 : Bool) : BitVec (N + 1) :=
  match q0, qm1 with
  | false, true => sext (N + 1) a + me
  | true, false => sext (N + 1) a - me
  | false, false => sext (N + 1) a
  | true, true => sext (N + 1) a

/-- One step of `MUL.BOOTH2`: add, subtract or nothing, then `T`, `Q`, `QM1` shifted right by one as
one value (41_multipliers R114, R116). -/
def Booth2Regs.step {N : Nat} (r : Booth2Regs N) : Booth2Regs N :=
  let t := booth2Sum r.me r.a (r.q.getLsbD 0) r.qm1
  { r with
    t := some t
    a := t.extractLsb' 1 N
    q := (t ++ r.q).extractLsb' 1 N
    qm1 := r.q.getLsbD 0
    i := r.i + 1 }

/-- The closing add in unsigned mode (41_multipliers R117, R127). -/
def closingAdd {N : Nat} (m : Mode) (opa a : Word N) (qm1 : Bool) : Word N :=
  if !m.bit && qm1 then a + opa else a

/-- `RES` from the finished registers (41_multipliers R114, R117). -/
def Booth2Regs.product {N : Nat} (m : Mode) (opa : Word N) (r : Booth2Regs N) : DWord N :=
  closingAdd m opa r.a r.qm1 ++ r.q

/-- The loop of `MUL.BOOTH2`, `N` steps (41_multipliers R114). -/
def booth2Run {N : Nat} (m : Mode) (a b : Word N) : Booth2Regs N :=
  iterate Booth2Regs.step N (Booth2Regs.start m a b)

/-- `MUL.BOOTH2` at Level O (41_multipliers R114). -/
def mulBooth2Outcome {N : Nat} (m : Mode) (a b : Word N) : OpOutcome N :=
  mulOutcome m a b ((booth2Run m a b).product m a)

/-- `MUL.BOOTH2` (41_multipliers R114). -/
def execMulBooth2 (m : Mode) (s : State) : Host.Outcome State Fault Refusal :=
  s.complete (mulBooth2Outcome m)

/-! ### MUL.BOOTH4 -/

/-- The digits of radix-4 recoding (41_multipliers R123). -/
inductive BoothDigit where
  | zero
  | plusOne
  | plusTwo
  | minusTwo
  | minusOne
  deriving DecidableEq, Repr

/-- `DIGIT(x2, x1, x0)`, the table of 41_multipliers R123. -/
def boothDigit (x2 x1 x0 : Bool) : BoothDigit :=
  match x2, x1, x0 with
  | false, false, false => .zero
  | false, false, true => .plusOne
  | false, true, false => .plusOne
  | false, true, true => .plusTwo
  | true, false, false => .minusTwo
  | true, false, true => .minusOne
  | true, true, false => .minusOne
  | true, true, true => .zero

/-- `d * ME` modulo the width of `ME` (41_multipliers R122). -/
def digitTimes {w : Nat} (d : BoothDigit) (me : BitVec w) : BitVec w :=
  match d with
  | .zero => 0
  | .plusOne => me
  | .plusTwo => shl me 1
  | .minusTwo => neg (shl me 1)
  | .minusOne => neg me

/-- Before the loop of `MUL.BOOTH4`: the multiplier extended to `L` bits under the mode (41_multipliers
R122, R124, 90_conflicts C3). -/
def Booth4Regs.start {N : Nat} (m : Mode) (a b : Word N) : Booth4Regs N :=
  { me := ext (N + 2) m a, a := 0, q := ext (booth4Len N) m b, qm1 := false, t := none, i := 0 }

/-- One step of `MUL.BOOTH4`: add the digit's multiple, then `T`, `Q`, `QM1` shifted right by two as
one value (41_multipliers R122, R126). -/
def Booth4Regs.step {N : Nat} (r : Booth4Regs N) : Booth4Regs N :=
  let d := boothDigit (r.q.getLsbD 1) (r.q.getLsbD 0) r.qm1
  let t := sext (N + 2) r.a + digitTimes d r.me
  { r with
    t := some t
    a := t.extractLsb' 2 N
    q := (t ++ r.q).extractLsb' 2 (booth4Len N)
    qm1 := r.q.getLsbD 1
    i := r.i + 1 }

/-- `RES` from the finished registers: the low `2N` bits of `A`, `Q` after the closing add
(41_multipliers R127, R128). -/
def Booth4Regs.product {N : Nat} (m : Mode) (opa : Word N) (r : Booth4Regs N) : DWord N :=
  (closingAdd m opa r.a r.qm1 ++ r.q).setWidth (N + N)

/-- The loop of `MUL.BOOTH4`, `K` steps (41_multipliers R122, R124). -/
def booth4Run {N : Nat} (m : Mode) (a b : Word N) : Booth4Regs N :=
  iterate Booth4Regs.step (booth4Steps N) (Booth4Regs.start m a b)

/-- `MUL.BOOTH4` at Level O (41_multipliers R122). -/
def mulBooth4Outcome {N : Nat} (m : Mode) (a b : Word N) : OpOutcome N :=
  mulOutcome m a b ((booth4Run m a b).product m a)

/-- `MUL.BOOTH4` (41_multipliers R122). -/
def execMulBooth4 (m : Mode) (s : State) : Host.Outcome State Fault Refusal :=
  s.complete (mulBooth4Outcome m)

end Sys2Proof.Machine
end

