-- ==== Sys2Proof/Machine/Dispatch.lean ====
section
/-! DEFINITION. The meaning of each operation: its completion on the latched operands. -/
namespace Sys2Proof.Machine

def exec (i : Instr) (s : State) : Host.Outcome State Fault Refusal :=
  match i with
  | .add m => Sys2Proof.Machine.execAdd m s
  | .sub m => Sys2Proof.Machine.execSub m s
  | .mulSeq m => Sys2Proof.Machine.execMulSeq m s
  | .mulNaive m => Sys2Proof.Machine.execMulNaive m s
  | .mulBooth2 m => Sys2Proof.Machine.execMulBooth2 m s
  | .mulBooth4 m => Sys2Proof.Machine.execMulBooth4 m s
  | .divRest m => Sys2Proof.Machine.execDivRest m s
  | .divNrest m => Sys2Proof.Machine.execDivNrest m s

end Sys2Proof.Machine
end

