-- ==== Sys2Proof/WellFormed.lean ====
section
/-! DEFINITION. What may be presented to the core: the checks on a command, on a width and on operands given
as integers. -/
namespace Sys2Proof

/-- A command has no field that could hold an illegal value: `S` is free in each of the eight
operations (30_encoding R61) and there are no specifiers or immediates (R65). -/
def Instr.wellFormed : Instr → Bool
  | .add _ => true
  | .sub _ => true
  | .mulSeq _ => true
  | .mulNaive _ => true
  | .mulBooth2 _ => true
  | .mulBooth4 _ => true
  | .divRest _ => true
  | .divNrest _ => true

/-- A width of which there is an instance (60_exceptions R174). -/
def widthOk (width : Int) : Bool := decide (1 ≤ width)

/-- A number that fits the five wires of the `cmd` port (30_encoding R60, R68). -/
def cmdWordFits (w : Nat) : Bool := decide (w < 32)

/-- The command words of 30_encoding R61 among all numbers: class and code are in the table. -/
def cmdWordLegal (w : Nat) : Bool := cmdWordFits w && [0, 1, 4, 5, 6, 7, 8, 9].contains (w % 16)

/-- An operand that can be presented at an `N`-bit port (20_memory R52). -/
def operandFits (n : Width) (v : Nat) : Bool := decide (v < 2 ^ n.bits)

end Sys2Proof
end

