-- ==== Sys2Proof/Decode.lean ====
section
/-! DEFINITION. Decoding and encoding of command words (spec/30_encoding.md R60 to R69). -/
namespace Sys2Proof

/-- Why a word is no command of the core. -/
inductive DecodeError where
  /-- One of the sixteen reserved words (30_encoding R66). -/
  | reserved (w : CmdWord)
  /-- A number that is no five-bit word (R60, R68). -/
  | notFiveBits (w : Nat)
  deriving DecidableEq, Repr

/-- The field `S`, bit 4 (R60). -/
def fieldS (w : CmdWord) : Bool := w.getLsbD 4

/-- The field `CLS`, bits 3 to 2 (R60, R62). -/
def fieldCls (w : CmdWord) : BitVec 2 := w.extractLsb' 2 2

/-- The field `ALG`, bits 1 to 0 (R60, R63). -/
def fieldAlg (w : CmdWord) : BitVec 2 := w.extractLsb' 0 2

/-- `decode` of R69, total on the 32 words: class (R62), then operation or algorithm (R63); the
rest is reserved (R66). -/
def decode (w : CmdWord) : Except DecodeError Instr :=
  let m := Mode.ofBit (fieldS w)
  match (fieldCls w).toNat, (fieldAlg w).toNat with
  | 0, 0 => .ok (.add m)
  | 0, 1 => .ok (.sub m)
  | 1, 0 => .ok (.mulSeq m)
  | 1, 1 => .ok (.mulNaive m)
  | 1, 2 => .ok (.mulBooth2 m)
  | 1, 3 => .ok (.mulBooth4 m)
  | 2, 0 => .ok (.divRest m)
  | 2, 1 => .ok (.divNrest m)
  | _, _ => .error (.reserved w)

/-- A number given as a command word; one that does not fit five bits is no word (R60, R68). -/
def decodeNat (w : Nat) : Except DecodeError Instr :=
  if w < 32 then decode (BitVec.ofNat 5 w) else .error (.notFiveBits w)

/-- The column `CMD[3:0]` of R61. -/
def opCode : Instr → BitVec 4
  | .add _ => 0b0000#4
  | .sub _ => 0b0001#4
  | .mulSeq _ => 0b0100#4
  | .mulNaive _ => 0b0101#4
  | .mulBooth2 _ => 0b0110#4
  | .mulBooth4 _ => 0b0111#4
  | .divRest _ => 0b1000#4
  | .divNrest _ => 0b1001#4

/-- `encode(S, op) = (S, code(op))` of R69, `S` on top. -/
def encode (i : Instr) : CmdWord := BitVec.ofBool i.mode.bit ++ opCode i

/-- The instruction the decoder reads from the low `nbits` bits of `w` (log 11): the core's words have
one length of five bits, presented on the `cmd` port whole (R60, R68), so no byte order enters. -/
def decodeTableWord (nbits w : Nat) : Option Instr :=
  match decodeNat (w % 2 ^ nbits) with
  | .ok i => some i
  | .error _ => none

end Sys2Proof
end

