-- ==== Sys2Proof/Machine/Levels.lean ====
section
/-! DEFINITION. The two levels at which each operation is described (spec/00_scope.md R8): the outcome, and the
sequence of contents of the working registers. -/
namespace Sys2Proof.Machine

/-- Level O of an operation. -/
def opOutcome {N : Nat} (i : Instr) (a b : Word N) : OpOutcome N :=
  match i with
  | .add m => addOutcome m a b
  | .sub m => subOutcome m a b
  | .mulSeq m => mulSeqOutcome m a b
  | .mulNaive m => mulNaiveOutcome m a b
  | .mulBooth2 m => mulBooth2Outcome m a b
  | .mulBooth4 m => mulBooth4Outcome m a b
  | .divRest m => divRestOutcome m a b
  | .divNrest m => divNrestOutcome m a b

/-- `exec(N, cmd, a, b)`, total on command words (00_scope R8); the decoder's check comes first
(60_exceptions R176). -/
def outcome {N : Nat} (cmd : CmdWord) (a b : Word N) : OpOutcome N :=
  match decode cmd with
  | .ok i => opOutcome i a b
  | .error _ => .illegalCommand

/-- The working registers as the unit initialises them; a divide by zero initialises none (42_dividers R141). -/
def startWork {N : Nat} (i : Instr) (a b : Word N) : Option (Work N) :=
  match i with
  | .add _ => some (.adder (addStart a b))
  | .sub _ => some (.adder (subStart a b))
  | .mulSeq m => some (.seq (SeqRegs.start m a b))
  | .mulNaive m => some (.naive (NaiveRegs.start m a b))
  | .mulBooth2 m => some (.booth2 (Booth2Regs.start m a b))
  | .mulBooth4 m => some (.booth4 (Booth4Regs.start m a b))
  | .divRest m => if b == 0#N then none else some (.rest (RestRegs.start m a b))
  | .divNrest m => if b == 0#N then none else some (.nrest (NrestRegs.start m a b))

/-- The working registers that a command word initialises: a reserved word none (60_exceptions R172). -/
def startCommand {N : Nat} (cmd : CmdWord) (a b : Word N) : Option (Work N) :=
  match decode cmd with
  | .ok i => startWork i a b
  | .error _ => none

/-- One Level S step of the unit, and none once its loop has run (70_reset_and_hazards R199). -/
def Work.advance {N : Nat} (w : Work N) : Work N :=
  match w with
  | .adder r => if r.i < N then .adder r.step else w
  | .seq r => if r.i < N then .seq r.step else w
  | .naive r => .naive r.step
  | .booth2 r => if r.i < N then .booth2 r.step else w
  | .booth4 r => if r.i < booth4Steps N then .booth4 r.step else w
  | .rest r => if r.i < N then .rest r.step else w
  | .nrest r => if r.i < N then .nrest r.step else w

/-- The number of Level S steps of an operation that is not turned away (70_reset_and_hazards R199). What that table
adds with the word plus is no step (41_multipliers R117, R127, 42_dividers R154; DEDUCED, log 6). -/
def stepCount (N : Nat) (i : Instr) : Nat :=
  match i with
  | .add _ => N
  | .sub _ => N
  | .mulSeq _ => N
  | .mulNaive _ => N + 1
  | .mulBooth2 _ => N
  | .mulBooth4 _ => booth4Steps N
  | .divRest _ => N
  | .divNrest _ => N

/-- The Level S sequence of an operation: the contents after each step, one element per step; empty for a divide
by zero, which takes no step (00_scope R8, 42_dividers R141). The contents as initialised are `startWork`. -/
def levelS {N : Nat} (i : Instr) (a b : Word N) : List (Work N) :=
  match startWork i a b with
  | some w => traceOf Work.advance (stepCount N i) w
  | none => []

/-- The outcome read off working registers whose loop has run: closing add, correction, sign fix-up and flags
(00_scope R8: the Level S machine, run to its end, yields the Level O outcome). -/
def Work.outcome {N : Nat} (m : Mode) (a b : Word N) (w : Work N) : Option (OpOutcome N) :=
  match w with
  | .adder r => some (adderOutcome m r)
  | .seq r => some (mulOutcome m a b r.product)
  | .naive r => r.product.map (mulOutcome m a b)
  | .booth2 r => some (mulOutcome m a b (r.product m a))
  | .booth4 r => some (mulOutcome m a b (r.product m a))
  | .rest r => some (divOutcome m a b r.q r.r)
  | .nrest r => some (divOutcome m a b r.q r.corrected)

end Sys2Proof.Machine
end

