-- ==== Sys2Proof/Machine/Edge.lean ====
section
/-! DEFINITION. One rising edge of `clk` (spec/10_state.md R31, R32; spec/70_reset_and_hazards.md R190 to R195). -/
namespace Sys2Proof.Machine

/-- A RUNNING edge before the completing one: one edge fewer is left, and the unit initialises its working
registers or takes one Level S step (log 6). -/
def Regs.advance {N : Nat} (r : Regs N) : Regs N :=
  { r with
    edgesLeft := r.edgesLeft - 1
    work :=
      match r.work with
      | some w => some w.advance
      | none =>
        match r.cmd, r.opa, r.opb with
        | some c, some a, some b => startCommand c a b
        | _, _, _ => none }

/-- The completing edge (10_state R32): the latched command runs; a reserved word fails with
`IllegalCommand` and runs no unit (30_encoding R66, 60_exceptions R172). A `CMD` that holds no value faults on the
read (10_state R44, 93_implementation_defined U7); no run reaches that, since acceptance latches it (R31). -/
def State.completeCommand (s : State) : Host.Outcome State Fault Refusal :=
  match s.regs.cmd with
  | none => .fault (.holdsNoValue .cmd)
  | some c =>
    match decode c with
    | .ok i => exec i s
    | .error _ => .next (s.withRegs (s.regs.finish .illegalCommand))

/-- One rising edge of `clk`. `rst` has priority over everything (60_exceptions R176, 70_reset_and_hazards R190);
`start` is looked at next: refused while BUSY (R194) and before the first reset (R192), else it
accepts the command (10_state R31); with no request a running command goes on (R32) and an idle or finished
core keeps its registers (60_exceptions R185). -/
def State.edge (s : State) : Host.Outcome State Fault Refusal :=
  if s.sample.rst then .next (s.pastSample.withRegs (Regs.reset s.width.bits))
  else
    match s.regs.busy with
    | none => if s.sample.start then .refused .commandBeforeReset else .next s.pastSample
    | some true =>
      if s.sample.start then .refused .startWhileBusy
      else if s.regs.edgesLeft ≤ 1 then s.pastSample.completeCommand
      else .next (s.pastSample.withRegs s.regs.advance)
    | some false =>
      if s.sample.start then
        .next (s.pastSample.withRegs
          (Regs.accepted s.latency s.sample.cmd s.sample.aIn s.sample.bIn))
      else .next s.pastSample

end Sys2Proof.Machine
end

