-- ==== Sys2Proof/Machine/Step.lean ====
section
/-! DEFINITION. The step of the machine: one rising edge of `clk` (spec/10_state.md R30 to R32, log 5). -/
namespace Sys2Proof.Machine

/-- One step is one rising edge of `clk`, with the inputs as the host drives them at it. -/
def step (s : State) : Host.Outcome State Fault Refusal := s.edge

/-- The machine with the command word `w` latched and one edge left, so that the very next step runs it (log 10).
Of a number of 32 or more the low five bits are latched, so 0x20 runs as 0x00: the spec has no such word (30_encoding
R60, R68) and is silent on it (DESIGN CHOICE, log 10). `decodeTableWord` refuses such a number (log 11). -/
def State.withFetchWord (s : State) (nbits w : Nat) : State :=
  s.placeCommand (BitVec.ofNat 5 (w % 2 ^ nbits))

end Sys2Proof.Machine
end

