-- ==== Sys2Proof/Machine/Ports.lean ====
section
/-! DEFINITION. The output ports and what a host may read there (spec/10_state.md R30, R45; spec/70_reset_and_hazards.md
R196). A read has no effect on the machine (20_memory R53). -/
namespace Sys2Proof.Machine

/-- Port `busy` (10_state R30); it holds no value before the first reset (70_reset_and_hazards R192). -/
def Regs.readBusy {N : Nat} (r : Regs N) : Except Refusal Bool :=
  match r.busy with
  | some b => .ok b
  | none => .error (.readOfNoValue .busy)

/-- Port `done` (10_state R30). -/
def Regs.readDone {N : Nat} (r : Regs N) : Except Refusal Bool :=
  match r.done with
  | some b => .ok b
  | none => .error (.readOfNoValue .done)

/-- Port `status`: valid only while `DONE = 1` (70_reset_and_hazards R196). -/
def Regs.readStatus {N : Nat} (r : Regs N) : Except Refusal (BitVec 2) :=
  match r.done, r.status with
  | some true, some c => .ok c.code
  | _, _ => .error (.readOfNoValue .status)

/-- Ports `res_hi` and `res_lo`: valid only while `DONE = 1` with `STATUS = Ok` (70_reset_and_hazards R196). -/
def Regs.readRes {N : Nat} (r : Regs N) : Except Refusal (Word N × Word N) :=
  match r.done, r.status, r.res with
  | some true, some .ok, some v => .ok (hiHalf v, loHalf v)
  | _, _, _ => .error (.readOfNoValue .res)

/-- Port `flags`: valid only while `DONE = 1` with `STATUS = Ok` (70_reset_and_hazards R196). -/
def Regs.readFlags {N : Nat} (r : Regs N) : Except Refusal (BitVec 4) :=
  match r.done, r.status, r.flags with
  | some true, some .ok, some f => .ok f
  | _, _, _ => .error (.readOfNoValue .flags)

/-- What the host learns of a finished operation (10_state R45): nothing unless `DONE = 1`. -/
def Regs.observe {N : Nat} (r : Regs N) : Option (OpOutcome N) :=
  match r.done, r.status, r.res, r.flags with
  | some true, some .ok, some v, some f => some (.ok v f)
  | some true, some .divisionByZero, _, _ => some .divisionByZero
  | some true, some .illegalCommand, _, _ => some .illegalCommand
  | _, _, _, _ => none

/-- The run-states of 10_state R29. -/
inductive RunState where
  | idle
  | running
  | finished
  deriving DecidableEq, Repr

/-- The run-state that `BUSY` and `DONE` give (10_state R29); `BUSY = DONE = 1` is none, and neither is
power-up. -/
def Regs.runState {N : Nat} (r : Regs N) : Option RunState :=
  match r.busy, r.done with
  | some false, some false => some .idle
  | some true, some false => some .running
  | some false, some true => some .finished
  | _, _ => none

end Sys2Proof.Machine
end

