-- ==== Sys2Proof/Safety.lean ====
section
/-! DEFINITION. The invariants of the machine and what a safe run is, in the terms the statements use. -/
namespace Sys2Proof.Machine

/-- The run-state and what is held in it (spec/10_state.md R29, R44, R46; spec/70_reset_and_hazards.md R192):
`BUSY = DONE = 1` never occurs; `OPA`, `OPB`, `CMD` are held exactly from acceptance on; `STATUS` exactly while
finished, `RES` and `FLAGS` exactly when moreover it is `Ok`; working registers only while running; and
edges are left exactly while running (the model's own counter, log 2). -/
structure HandshakeInv {N : Nat} (r : Regs N) : Prop where
  notBusyAndDone : ¬ (r.busy = some true ∧ r.done = some true)
  powerUpTogether : r.busy = none ↔ r.done = none
  opaHeld : r.opa.isSome ↔ (r.busy = some true ∨ r.done = some true)
  opbHeld : r.opb.isSome ↔ (r.busy = some true ∨ r.done = some true)
  cmdHeld : r.cmd.isSome ↔ (r.busy = some true ∨ r.done = some true)
  statusHeld : r.status.isSome ↔ r.done = some true
  resHeld : r.res.isSome ↔ r.status = some .ok
  flagsHeld : r.flags.isSome ↔ r.status = some .ok
  workOnlyRunning : r.work.isSome → r.busy = some true
  edgesWhileRunning : 0 < r.edgesLeft ↔ r.busy = some true

/-- A finished core shows the outcome of the command and operands it has latched, and nothing else
(spec/10_state.md R32, spec/20_memory.md R55). -/
def ResultInv {N : Nat} (r : Regs N) : Prop :=
  r.done = some true → ∃ c a b, r.cmd = some c ∧ r.opa = some a ∧ r.opb = some b ∧
    r.observe = some (outcome c a b)

/-- The working registers of a running unit are those its command initialises or an element of its Level S
sequence (spec/00_scope.md R8); that they stand there at every edge is the model's schedule (log 6). -/
def WorkInv {N : Nat} (r : Regs N) : Prop :=
  ∀ w, r.work = some w → ∃ c a b i, r.cmd = some c ∧ r.opa = some a ∧ r.opb = some b ∧
    decode c = .ok i ∧ (startWork i a b = some w ∨ w ∈ levelS i a b)

/-- The edges left never exceed the latency of the command in flight (spec/10_state.md R32). -/
def LatencyInv (s : State) : Prop :=
  s.regs.busy = some true → ∃ c a b, s.regs.cmd = some c ∧ s.regs.opa = some a ∧
    s.regs.opb = some b ∧ s.regs.edgesLeft ≤ latencyEdges s.latency c a b

/-- `k` steps with neither a fault nor a refusal, as a relation. -/
def RunsTo (k : Nat) (s t : State) : Prop := Sys2Proof.core.run k s = .next t

/-- The host keeps the rules of spec/70_reset_and_hazards.md R192, R194 at the next edge: no request while the core is busy,
none before the first reset. -/
def hostKeepsRules (s : State) : Bool :=
  s.sample.rst || !s.sample.start || s.regs.busy == some false

end Sys2Proof.Machine
end

