-- ==== Sys2Proof/Certificates/Slice0/Obligations.lean ====
section
/-! DEFINITION. The statements for the provers, from the numbered rules of spec/. Each is a definition; none is
proved here. Where a next state is written out, `edgesLeft` is the model's own counter of the edges of
10_state R32 (log 2, DESIGN CHOICE), 0 in a finished core. -/

open Sys2Proof Sys2Proof.Machine

/-- configure refuses exactly the widths below 1 (R174, R5). -/
def Obligations.ConfigureRefusesExactlyNonPositiveWidths : Prop :=
  ∀ width : Int, (configure width = none ↔ width < 1) ∧
    ∀ n : Width, configure width = some n → (n.bits : Int) = width

/-- loading an integer reduces it mod 2^w, and masking is idempotent (R12). -/
def Obligations.LoadingAnIntegerMasksIt : Prop :=
  ∀ (w : Nat) (m : Mode) (v : Int), 0 < w →
    ((fromInt w v).toNat : Int) = v % 2 ^ w ∧ fromInt w (val m (fromInt w v)) = fromInt w v

/-- ext_m(v, S) read as signed is val(v, w, S) (R13). -/
def Obligations.ExtensionKeepsTheLogicalValue : Prop :=
  ∀ (w n : Nat) (m : Mode) (v : BitVec w), w < n → val .signed (ext n m v) = val m v

/-- mag_w(v, S) is the absolute value of the logical value (R13). -/
def Obligations.MagnitudeIsTheAbsoluteValue : Prop :=
  ∀ (w : Nat) (m : Mode) (v : BitVec w), 0 < w → (mag m v).toNat = (val m v).natAbs

/-- C, V, NG, Z are bits 0 to 3 of FLAGS (R26). -/
def Obligations.FlagsStandAtTheirPositions : Prop :=
  ∀ c v ng z : Bool,
    (packFlags c v ng z).toNat = c.toNat + 2 * v.toNat + 4 * ng.toNat + 8 * z.toNat ∧
    flagC (packFlags c v ng z) = c ∧ flagV (packFlags c v ng z) = v ∧
    flagNG (packFlags c v ng z) = ng ∧ flagZ (packFlags c v ng z) = z

/-- STATUS is 0 Ok, 1 DivisionByZero, 2 IllegalCommand, never 3 (R28, R170). -/
def Obligations.StatusCodesAreZeroOneTwo : Prop :=
  Status.code .ok = 0#2 ∧ Status.code .divisionByZero = 1#2 ∧ Status.code .illegalCommand = 2#2 ∧
    ∀ c : Status, c.code ≠ 3#2

/-- a word decodes to an operation exactly when it is that operation's encoding (R69). -/
def Obligations.DecodeIsTheInverseOfEncode : Prop :=
  ∀ (w : CmdWord) (i : Instr), decode w = .ok i ↔ encode i = w

/-- words written out from the table decode to their operations (R60, R61, R66). -/
def Obligations.TableWordsDecodeToTheirOperations : Prop :=
  decode 0b00000#5 = .ok (.add .unsigned) ∧ decode 0b10001#5 = .ok (.sub .signed) ∧
    decode 0b00100#5 = .ok (.mulSeq .unsigned) ∧ decode 0b10101#5 = .ok (.mulNaive .signed) ∧
    decode 0b10110#5 = .ok (.mulBooth2 .signed) ∧ decode 0b00111#5 = .ok (.mulBooth4 .unsigned) ∧
    decode 0b11000#5 = .ok (.divRest .signed) ∧ decode 0b01001#5 = .ok (.divNrest .unsigned) ∧
    decode 0b01010#5 = .error (.reserved 0b01010#5)

/-- x + y + ci = 2*co + s in the full-adder cell (R81). -/
def Obligations.FullAdderAddsThreeBits : Prop :=
  ∀ x y ci : Bool, (fullAdder x y ci).1 = (x ^^ y ^^ ci) ∧
    x.toNat + y.toNat + ci.toNat = 2 * (fullAdder x y ci).2.toNat + (fullAdder x y ci).1.toNat

/-- X + Y + cin = 2^N * c[N] + SUM, and every carry is the carry of the low bits (R82). -/
def Obligations.ChainAddsItsInputs : Prop :=
  ∀ (N : Nat) (x y : Word N) (cin : Bool),
    x.toNat + y.toNat + cin.toNat
      = 2 ^ N * ((chain x y cin).carry N).toNat + (chain x y cin).sumWord.toNat ∧
    ∀ k ≤ N, (chain x y cin).carry k
      = decide (2 ^ k ≤ x.toNat % 2 ^ k + y.toNat % 2 ^ k + cin.toNat)

/-- carry into the MSB XOR carry out of it is the same-sign rule (R86). -/
def Obligations.OverflowRulesAgreeOnTheChain : Prop :=
  ∀ (N : Nat) (x y : Word N) (cin : Bool), 0 < N →
    (((chain x y cin).carry (N - 1) ^^ (chain x y cin).carry N) = true ↔
      (x.msb = y.msb ∧ (chain x y cin).sumWord.msb ≠ x.msb))

/-- ADD: sum mod 2^N in LO, HI = 0, carry, signed overflow, negative, zero; nothing else changes (R83). That
no edges are left (edgesLeft = 0) speaks of the model's own counter (log 2, DESIGN CHOICE). -/
def Obligations.AddWritesSumAndFlags : Prop :=
  ∀ (m : Mode) (s : State) (a b : Word s.width.bits), s.regs.opa = some a → s.regs.opb = some b →
    (encode (.add m)).extractLsb' 0 4 = 0b0000#4 ∧
    exec (.add m) s = .next (s.withRegs
      { s.regs with
        busy := some false, done := some true, status := some .ok, work := none, edgesLeft := 0
        res := some (0#s.width.bits ++ (a + b))
        flags := some (packFlags
          (decide (2 ^ s.width.bits ≤ a.toNat + b.toNat))
          (!decide (-2 ^ (s.width.bits - 1) ≤ a.toInt + b.toInt ∧
            a.toInt + b.toInt ≤ 2 ^ (s.width.bits - 1) - 1))
          (m.bit && (a + b).msb) (a + b == 0)) })

/-- SUB: difference mod 2^N, C means no borrow, signed overflow, negative, zero; nothing else changes (R84).
That no edges are left (edgesLeft = 0) speaks of the model's own counter (log 2, DESIGN CHOICE). -/
def Obligations.SubWritesDifferenceAndFlags : Prop :=
  ∀ (m : Mode) (s : State) (a b : Word s.width.bits), s.regs.opa = some a → s.regs.opb = some b →
    (encode (.sub m)).extractLsb' 0 4 = 0b0001#4 ∧
    exec (.sub m) s = .next (s.withRegs
      { s.regs with
        busy := some false, done := some true, status := some .ok, work := none, edgesLeft := 0
        res := some (0#s.width.bits ++ (a - b))
        flags := some (packFlags
          (decide (b.toNat ≤ a.toNat))
          (!decide (-2 ^ (s.width.bits - 1) ≤ a.toInt - b.toInt ∧
            a.toInt - b.toInt ≤ 2 ^ (s.width.bits - 1) - 1))
          (m.bit && (a - b).msb) (a - b == 0)) })

/-- in ADD and SUB the mode changes the flag NG alone (R64, R87). That no edges are left (edgesLeft = 0)
speaks of the model's own counter (log 2, DESIGN CHOICE). -/
def Obligations.AddSubModeChangesOnlyNegative : Prop :=
  ∀ (s : State) (a b : Word s.width.bits), s.regs.opa = some a → s.regs.opb = some b →
    (∃ (lo : Word s.width.bits) (c v z : Bool), ∀ m : Mode, exec (.add m) s = .next (s.withRegs
      (s.regs.succeed (0#s.width.bits ++ lo) (packFlags c v (m.bit && lo.msb) z)))) ∧
    (∃ (lo : Word s.width.bits) (c v z : Bool), ∀ m : Mode, exec (.sub m) s = .next (s.withRegs
      (s.regs.succeed (0#s.width.bits ++ lo) (packFlags c v (m.bit && lo.msb) z))))

/-- after SUB, NG XOR V is signed less-than and C = 0 is unsigned less-than (R84, R85, R87). -/
def Obligations.SubFlagsCompareTheOperands : Prop :=
  ∀ (N : Nat) (a b : Word N), 0 < N →
    (∃ res f, subOutcome .signed a b = .ok res f ∧
      (flagNG f ^^ flagV f) = decide (a.toInt < b.toInt) ∧ flagZ f = decide (a = b)) ∧
    (∃ res f, subOutcome .unsigned a b = .ok res f ∧
      (!flagC f) = decide (a.toNat < b.toNat) ∧ flagZ f = decide (a = b))

/-- after j steps of MUL.SEQ: ACC = MA*(MB mod 2^j), MCAND = MA*2^j, MPLIER = floor(MB/2^j) (R105). -/
def Obligations.MulSeqStepInvariant : Prop :=
  ∀ (N : Nat) (m : Mode) (a b : Word N) (j : Nat), j ≤ N →
    (iterate SeqRegs.step j (SeqRegs.start m a b)).acc.toNat
      = (mag m a).toNat * ((mag m b).toNat % 2 ^ j) ∧
    (iterate SeqRegs.step j (SeqRegs.start m a b)).mcand.toNat
      = (mag m a).toNat * 2 ^ j ∧
    (iterate SeqRegs.step j (SeqRegs.start m a b)).mplier.toNat = (mag m b).toNat / 2 ^ j

/-- MUL.SEQ writes the exact product and its flags; nothing else changes (R104, R101, R102). That no edges
are left (edgesLeft = 0) speaks of the model's own counter (log 2, DESIGN CHOICE). -/
def Obligations.MulSeqWritesProduct : Prop :=
  ∀ (m : Mode) (s : State) (a b : Word s.width.bits), s.regs.opa = some a → s.regs.opb = some b →
    (encode (.mulSeq m)).extractLsb' 0 4 = 0b0100#4 ∧
    exec (.mulSeq m) s = .next (s.withRegs
      { s.regs with
        busy := some false, done := some true, status := some .ok, work := none, edgesLeft := 0
        res := some (BitVec.ofInt (s.width.bits + s.width.bits) (val m a * val m b))
        flags := some (packFlags false false
          (m.bit && (BitVec.ofInt (s.width.bits + s.width.bits) (val m a * val m b)).msb)
          (BitVec.ofInt (s.width.bits + s.width.bits) (val m a * val m b) == 0)) })

/-- PP[i] is MA*2^i where bit i of MB is set, else 0, and SUM is the final ACC of MUL.SEQ (R110, R111). -/
def Obligations.NaivePartialProductsAreThoseOfMulSeq : Prop :=
  ∀ (N : Nat) (m : Mode) (a b : Word N),
    (naiveRun m a b).pp.map BitVec.toNat = (List.range N).map (fun i =>
      if (mag m b).getLsbD i then (mag m a).toNat * 2 ^ i else 0) ∧
    (naiveRun m a b).sum = some (seqRun m a b).acc

/-- MUL.NAIVE writes the exact product and its flags; nothing else changes (R110, R101, R102). That no edges
are left (edgesLeft = 0) speaks of the model's own counter (log 2, DESIGN CHOICE). -/
def Obligations.MulNaiveWritesProduct : Prop :=
  ∀ (m : Mode) (s : State) (a b : Word s.width.bits), s.regs.opa = some a → s.regs.opb = some b →
    (encode (.mulNaive m)).extractLsb' 0 4 = 0b0101#4 ∧
    exec (.mulNaive m) s = .next (s.withRegs
      { s.regs with
        busy := some false, done := some true, status := some .ok, work := none, edgesLeft := 0
        res := some (BitVec.ofInt (s.width.bits + s.width.bits) (val m a * val m b))
        flags := some (packFlags false false
          (m.bit && (BitVec.ofInt (s.width.bits + s.width.bits) (val m a * val m b)).msb)
          (BitVec.ofInt (s.width.bits + s.width.bits) (val m a * val m b) == 0)) })

/-- after j steps of MUL.BOOTH2 the top N+j bits hold M times the recoded low j multiplier bits (R118, R115,
R116). -/
def Obligations.MulBooth2StepInvariant : Prop :=
  ∀ (N : Nat) (m : Mode) (a b : Word N) (j : Nat), 1 ≤ j → j ≤ N →
    (((iterate Booth2Regs.step j (Booth2Regs.start m a b)).a ++
        (iterate Booth2Regs.step j (Booth2Regs.start m a b)).q).extractLsb' (N - j) (N + j)).toInt
      = val m a * (b.extractLsb' 0 j).toInt ∧
    (iterate Booth2Regs.step j (Booth2Regs.start m a b)).q.extractLsb' 0 (N - j)
      = b.extractLsb' j (N - j) ∧
    (iterate Booth2Regs.step j (Booth2Regs.start m a b)).qm1 = b.getLsbD (j - 1)

/-- MUL.BOOTH2 writes the exact product and its flags; nothing else changes (R114, R101, R102). That no
edges are left (edgesLeft = 0) speaks of the model's own counter (log 2, DESIGN CHOICE). -/
def Obligations.MulBooth2WritesProduct : Prop :=
  ∀ (m : Mode) (s : State) (a b : Word s.width.bits), s.regs.opa = some a → s.regs.opb = some b →
    (encode (.mulBooth2 m)).extractLsb' 0 4 = 0b0110#4 ∧
    exec (.mulBooth2 m) s = .next (s.withRegs
      { s.regs with
        busy := some false, done := some true, status := some .ok, work := none, edgesLeft := 0
        res := some (BitVec.ofInt (s.width.bits + s.width.bits) (val m a * val m b))
        flags := some (packFlags false false
          (m.bit && (BitVec.ofInt (s.width.bits + s.width.bits) (val m a * val m b)).msb)
          (BitVec.ofInt (s.width.bits + s.width.bits) (val m a * val m b) == 0)) })

/-- DIGIT(x2,x1,x0) = -2*x2 + x1 + x0, and the digits sum to the multiplier (R123). -/
def Obligations.BoothDigitsRecodeTheMultiplier : Prop :=
  (∀ (x2 x1 x0 : Bool) (w : Nat) (me : BitVec w),
    digitTimes (boothDigit x2 x1 x0) me
      = me * BitVec.ofInt w (-2 * (x2.toNat : Int) + x1.toNat + x0.toNat)) ∧
  ∀ (w K : Nat) (be : BitVec (2 * K)) (me : BitVec w),
    ((List.range K).map (fun i =>
        digitTimes (boothDigit (be.getLsbD (2 * i + 1)) (be.getLsbD (2 * i))
          (decide (0 < i) && be.getLsbD (2 * i - 1))) me * BitVec.ofNat w (4 ^ i))).sum
      = me * BitVec.ofInt w be.toInt

/-- after j steps of MUL.BOOTH4 the top N+2j bits hold M times the recoded low 2j multiplier bits (R129,
R124, R126). -/
def Obligations.MulBooth4StepInvariant : Prop :=
  ∀ (N : Nat) (m : Mode) (a b : Word N) (j : Nat), 1 ≤ j → j ≤ booth4Steps N →
    (((iterate Booth4Regs.step j (Booth4Regs.start m a b)).a ++
        (iterate Booth4Regs.step j (Booth4Regs.start m a b)).q).extractLsb'
          (booth4Len N - 2 * j) (N + 2 * j)).toInt
      = val m a * ((ext (booth4Len N) m b).extractLsb' 0 (2 * j)).toInt ∧
    (iterate Booth4Regs.step j (Booth4Regs.start m a b)).q.extractLsb' 0 (booth4Len N - 2 * j)
      = (ext (booth4Len N) m b).extractLsb' (2 * j) (booth4Len N - 2 * j) ∧
    (iterate Booth4Regs.step j (Booth4Regs.start m a b)).qm1
      = (ext (booth4Len N) m b).getLsbD (2 * j - 1)

/-- MUL.BOOTH4 writes the exact product and its flags; nothing else changes (R122, R101, R102). That no
edges are left (edgesLeft = 0) speaks of the model's own counter (log 2, DESIGN CHOICE). -/
def Obligations.MulBooth4WritesProduct : Prop :=
  ∀ (m : Mode) (s : State) (a b : Word s.width.bits), s.regs.opa = some a → s.regs.opb = some b →
    (encode (.mulBooth4 m)).extractLsb' 0 4 = 0b0111#4 ∧
    exec (.mulBooth4 m) s = .next (s.withRegs
      { s.regs with
        busy := some false, done := some true, status := some .ok, work := none, edgesLeft := 0
        res := some (BitVec.ofInt (s.width.bits + s.width.bits) (val m a * val m b))
        flags := some (packFlags false false
          (m.bit && (BitVec.ofInt (s.width.bits + s.width.bits) (val m a * val m b)).msb)
          (BitVec.ofInt (s.width.bits + s.width.bits) (val m a * val m b) == 0)) })

/-- the product of every multiplier is exact in the 2N bits of RES (R101). -/
def Obligations.ProductLawOfAllMultipliers : Prop :=
  ∀ (N : Nat) (m : Mode) (a b : Word N), 0 < N →
    ∀ i ∈ [Instr.mulSeq m, Instr.mulNaive m, Instr.mulBooth2 m, Instr.mulBooth4 m],
      ∃ res f, opOutcome i a b = .ok res f ∧
        (res.toNat : Int) = (val m a * val m b) % 2 ^ (2 * N) ∧ val m res = val m a * val m b

/-- the four multiplies have the same effect on every state (R132). -/
def Obligations.MultipliersAgree : Prop :=
  ∀ (m : Mode) (s : State), exec (.mulNaive m) s = exec (.mulSeq m) s ∧
    exec (.mulBooth2 m) s = exec (.mulSeq m) s ∧ exec (.mulBooth4 m) s = exec (.mulSeq m) s

/-- after j steps of DIV.REST: R = n_j mod D, low bits of Q = floor(n_j/D), the rest of Q unread (R149). -/
def Obligations.RestoringStepInvariant : Prop :=
  ∀ (N : Nat) (m : Mode) (a b : Word N) (j : Nat), b ≠ 0#N → 1 ≤ j → j ≤ N →
    (iterate RestRegs.step j (RestRegs.start m a b)).r.toNat
      = ((mag m a).toNat / 2 ^ (N - j)) % (mag m b).toNat ∧
    ((iterate RestRegs.step j (RestRegs.start m a b)).q.extractLsb' 0 j).toNat
      = ((mag m a).toNat / 2 ^ (N - j)) / (mag m b).toNat ∧
    (iterate RestRegs.step j (RestRegs.start m a b)).q.extractLsb' j (N - j)
      = (mag m a).extractLsb' 0 (N - j)

/-- DIV.REST writes the truncated quotient, the remainder and the flags; nothing else changes (R147, R143,
R145). That no edges are left (edgesLeft = 0) speaks of the model's own counter (log 2, DESIGN CHOICE). -/
def Obligations.DivRestWritesQuotientAndRemainder : Prop :=
  ∀ (m : Mode) (s : State) (a b : Word s.width.bits), s.regs.opa = some a → s.regs.opb = some b →
    b ≠ 0#s.width.bits →
    (encode (.divRest m)).extractLsb' 0 4 = 0b1000#4 ∧
    exec (.divRest m) s = .next (s.withRegs
      { s.regs with
        busy := some false, done := some true, status := some .ok, work := none, edgesLeft := 0
        res := some (BitVec.ofInt s.width.bits ((val m a).tmod (val m b)) ++
          BitVec.ofInt s.width.bits ((val m a).tdiv (val m b)))
        flags := some (packFlags false
          (m.bit && a == BitVec.intMin s.width.bits && b == BitVec.allOnes s.width.bits)
          (m.bit && (BitVec.ofInt s.width.bits ((val m a).tdiv (val m b))).msb)
          (BitVec.ofInt s.width.bits ((val m a).tdiv (val m b)) == 0)) })

/-- after j steps of DIV.NREST the signed remainder is n_j mod D, less D where the last bit is 0 (R155,
R153). -/
def Obligations.NonRestoringStepInvariant : Prop :=
  ∀ (N : Nat) (m : Mode) (a b : Word N) (j : Nat), b ≠ 0#N → 1 ≤ j → j ≤ N →
    (iterate NrestRegs.step j (NrestRegs.start m a b)).r.toInt
      = (((mag m a).toNat / 2 ^ (N - j)) % (mag m b).toNat : Nat) -
        (if (iterate NrestRegs.step j (NrestRegs.start m a b)).q.getLsbD 0 then 0
          else ((mag m b).toNat : Int)) ∧
    ((iterate NrestRegs.step j (NrestRegs.start m a b)).q.extractLsb' 0 j).toNat
      = ((mag m a).toNat / 2 ^ (N - j)) / (mag m b).toNat ∧
    (iterate NrestRegs.step j (NrestRegs.start m a b)).q.extractLsb' j (N - j)
      = (mag m a).extractLsb' 0 (N - j)

/-- DIV.NREST writes the truncated quotient, the remainder and the flags; nothing else changes (R152, R143,
R145, R154). That no edges are left (edgesLeft = 0) speaks of the model's own counter (log 2, DESIGN
CHOICE). -/
def Obligations.DivNrestWritesQuotientAndRemainder : Prop :=
  ∀ (m : Mode) (s : State) (a b : Word s.width.bits), s.regs.opa = some a → s.regs.opb = some b →
    b ≠ 0#s.width.bits →
    (encode (.divNrest m)).extractLsb' 0 4 = 0b1001#4 ∧
    exec (.divNrest m) s = .next (s.withRegs
      { s.regs with
        busy := some false, done := some true, status := some .ok, work := none, edgesLeft := 0
        res := some (BitVec.ofInt s.width.bits ((val m a).tmod (val m b)) ++
          BitVec.ofInt s.width.bits ((val m a).tdiv (val m b)))
        flags := some (packFlags false
          (m.bit && a == BitVec.intMin s.width.bits && b == BitVec.allOnes s.width.bits)
          (m.bit && (BitVec.ofInt s.width.bits ((val m a).tdiv (val m b))).msb)
          (BitVec.ofInt s.width.bits ((val m a).tdiv (val m b)) == 0)) })

/-- a divide with OPB = 0 completes with DivisionByZero and no result (R141). That no edges are left
(edgesLeft = 0) speaks of the model's own counter (log 2, DESIGN CHOICE). -/
def Obligations.DivideByZeroFails : Prop :=
  ∀ (m : Mode) (s : State) (a : Word s.width.bits), s.regs.opa = some a →
    s.regs.opb = some 0#s.width.bits →
    ∀ i ∈ [Instr.divRest m, Instr.divNrest m],
      startWork i a 0#s.width.bits = none ∧
      exec i s = .next (s.withRegs
        { s.regs with
          busy := some false, done := some true, status := some .divisionByZero
          res := none, flags := none, work := none, edgesLeft := 0 })

/-- DivisionByZero is raised by the two divides when OPB = 0 and by nothing else (R171, R170). -/
def Obligations.OnlyDividesByZeroRaiseDivisionByZero : Prop :=
  ∀ (N : Nat) (i : Instr) (a b : Word N),
    (opOutcome i a b = .divisionByZero ↔
      (i = .divRest i.mode ∨ i = .divNrest i.mode) ∧ b = 0#N) ∧
    opOutcome i a b ≠ .illegalCommand

/-- dividend = quotient * divisor + remainder, with |r| < |y| and r of the dividend's sign, unless V = 1
(R146, R144). -/
def Obligations.DivisionLaw : Prop :=
  ∀ (N : Nat) (m : Mode) (a b : Word N), 0 < N → b ≠ 0#N →
    ∀ i ∈ [Instr.divRest m, Instr.divNrest m],
      ∃ res f, opOutcome i a b = .ok res f ∧
        (flagV f = false →
          val m (loHalf res) = (val m a).tdiv (val m b) ∧
          val m a = val m (loHalf res) * val m b + val m (hiHalf res) ∧
          (val m (hiHalf res)).natAbs < (val m b).natAbs ∧
          (val m (hiHalf res) = 0 ∨ (val m (hiHalf res)).sign = (val m a).sign)) ∧
        (flagV f = true →
          loHalf res = BitVec.intMin N ∧ hiHalf res = 0 ∧ val m a = -2 ^ (N - 1) ∧
          val m (loHalf res) * val m b + val m (hiHalf res) = 2 ^ (N - 1))

/-- the most negative value divided by -1 wraps, with V = 1 and outcome Ok (R144, R145). That no edges are
left (edgesLeft = 0) speaks of the model's own counter (log 2, DESIGN CHOICE). -/
def Obligations.MostNegativeByMinusOneWraps : Prop :=
  (∀ s : State, s.regs.opa = some (BitVec.intMin s.width.bits) →
    s.regs.opb = some (BitVec.allOnes s.width.bits) →
    ∀ i ∈ [Instr.divRest .signed, Instr.divNrest .signed],
      exec i s = .next (s.withRegs
        { s.regs with
          busy := some false, done := some true, status := some .ok, work := none, edgesLeft := 0
          res := some (0#s.width.bits ++ BitVec.intMin s.width.bits)
          flags := some (packFlags false true true false) })) ∧
  (∀ (N : Nat) (m : Mode) (a b : Word N), 0 < N → b ≠ 0#N →
    ¬ (m = .signed ∧ a = BitVec.intMin N ∧ b = BitVec.allOnes N) →
    ∀ i ∈ [Instr.divRest m, Instr.divNrest m],
      ∃ res f, opOutcome i a b = .ok res f ∧ flagV f = false)

/-- the two dividers agree step by step: same quotient bits, and R of DIV.NREST is T of DIV.REST (R155). -/
def Obligations.DividersAgreeStepByStep : Prop :=
  ∀ (N : Nat) (m : Mode) (a b : Word N) (j : Nat), b ≠ 0#N → 1 ≤ j → j ≤ N →
    (iterate NrestRegs.step j (NrestRegs.start m a b)).q
      = (iterate RestRegs.step j (RestRegs.start m a b)).q ∧
    (iterate RestRegs.step j (RestRegs.start m a b)).t
      = some (iterate NrestRegs.step j (NrestRegs.start m a b)).r

/-- the two divides have the same effect on every state (R158). -/
def Obligations.DividersAgree : Prop :=
  ∀ (m : Mode) (s : State), exec (.divNrest m) s = exec (.divRest m) s

/-- the Level S sequence, run to its end, yields the Level O outcome (R8, R141, R199, R117, R127, R154).
That the sequence of a divide by zero is empty, and no other, is R141 and R199. That the closing adds
and the final correction belong to the read-out of the last element and are no elements is read from
R117, R127 and R154, against the word plus of R199's table (log 6, DEDUCED). -/
def Obligations.LevelSYieldsLevelO : Prop :=
  ∀ (N : Nat) (i : Instr) (a b : Word N), 0 < N →
    (levelS i a b = [] ↔ opOutcome i a b = .divisionByZero) ∧
    ∀ w, (levelS i a b).getLast? = some w → w.outcome i.mode a b = some (opOutcome i a b)

/-- the Level S sequences have one element for each step, closing adds and the final correction being no
steps (R8, R199, R110, R117, R127, R154). The lengths are the steps of R199 without what its table adds
to them with the word plus: the closing adds of the Booth multipliers and the final correction of
DIV.NREST are no elements, since R117 and R154 say that they are no steps and R8 asks for one element
per algorithm step (log 6, DEDUCED). That the restore is no element of its own is the model's choice
(log 8, DESIGN CHOICE, which R148 leaves to a model). -/
def Obligations.LevelSHasTheStatedStepCounts : Prop :=
  ∀ (N : Nat) (m : Mode) (a b : Word N),
    (∀ i ∈ [Instr.add m, .sub m, .mulSeq m, .mulBooth2 m], (levelS i a b).length = N) ∧
    (∀ i ∈ [Instr.divRest m, .divNrest m],
      (levelS i a b).length = if b = 0#N then 0 else N) ∧
    (levelS (.mulNaive m) a b).length = N + 1 ∧
    (levelS (.mulBooth4 m) a b).length = (N + 1) / 2 ∧
    (∀ (i : Instr) (v w : Work N), startWork i a b = some v → (levelS i a b)[0]? = some w →
      w = v.advance) ∧
    (∀ (i : Instr) (k : Nat) (v w : Work N), (levelS i a b)[k]? = some v →
      (levelS i a b)[k + 1]? = some w → w = v.advance) ∧
    ∀ (k : Nat) (v : Work N), (levelS (.mulNaive m) a b)[k]? = some v → ∃ r, v = .naive r ∧
      (k < N → r.pp = (naiveRun m a b).pp.take (k + 1) ∧ r.pp.length = k + 1 ∧ r.sum = none) ∧
      (k = N → r = naiveRun m a b)

/-- after reset BUSY and DONE are 0 and every other register holds no value (R46). -/
def Obligations.ResetLeavesOnlyTheRunState : Prop :=
  ∀ (n : Width) (l : Latency),
    (State.resetOf n l).regs.busy = some false ∧ (State.resetOf n l).regs.done = some false ∧
    (State.resetOf n l).regs.status = none ∧ (State.resetOf n l).regs.res = none ∧
    (State.resetOf n l).regs.flags = none ∧ (State.resetOf n l).regs.opa = none ∧
    (State.resetOf n l).regs.opb = none ∧ (State.resetOf n l).regs.cmd = none ∧
    (State.resetOf n l).regs.work = none

/-- an edge with rst = 1 resets the core, whatever it was doing and whatever start says (R190). That no
edges are left (edgesLeft = 0) speaks of the model's own counter (log 2, DESIGN CHOICE). -/
def Obligations.ResetEdgeResetsEveryState : Prop :=
  ∀ s : State, s.sample.rst = true → ∃ r : Regs s.width.bits,
    step s = .next { width := s.width, latency := s.latency, inputs := s.inputs.tail, regs := r } ∧
    r.busy = some false ∧ r.done = some false ∧ r.runState = some .idle ∧
    r.status = none ∧ r.res = none ∧ r.flags = none ∧ r.opa = none ∧ r.opb = none ∧ r.cmd = none ∧
    r.work = none ∧ r.edgesLeft = 0

/-- a request to an idle or finished core is accepted: operands and command latched, no result held (R31,
R32, R200). That the working registers hold no value until the first running edge is the model's choice
(log 6, DESIGN CHOICE), and the edges left are the model's own counter (log 2, DESIGN CHOICE) of what
R32 and R200 say in words. -/
def Obligations.AcceptanceLatchesTheCommand : Prop :=
  ∀ s : State, s.sample.rst = false → s.sample.start = true → s.regs.busy = some false →
    ∃ r : Regs s.width.bits,
      step s = .next { width := s.width, latency := s.latency, inputs := s.inputs.tail, regs := r } ∧
      r.opa = some s.sample.aIn ∧ r.opb = some s.sample.bIn ∧ r.cmd = some s.sample.cmd ∧
      r.busy = some true ∧ r.done = some false ∧ r.runState = some .running ∧
      r.res = none ∧ r.flags = none ∧ r.status = none ∧ r.work = none ∧
      r.edgesLeft = latencyEdges s.latency s.sample.cmd s.sample.aIn s.sample.bIn ∧
      0 < r.edgesLeft

/-- a request while the core is busy gets no step (R194). -/
def Obligations.StartWhileBusyIsRefused : Prop :=
  ∀ s : State, s.sample.rst = false → s.sample.start = true → s.regs.busy = some true →
    step s = .refused .startWhileBusy

/-- a request before the first reset gets no step (R192). -/
def Obligations.CommandBeforeResetIsRefused : Prop :=
  ∀ s : State, s.sample.rst = false → s.sample.start = true → s.regs.busy = none →
    step s = .refused .commandBeforeReset

/-- an edge with neither rst nor start leaves a core that is not running as it is, also before the first
reset (R32, R185, R192). For a core before its first reset, whose registers hold no value, that they go
on holding none is the model's inference from R192 (log 7, DEDUCED). -/
def Obligations.EdgeWithoutRequestKeepsTheRegisters : Prop :=
  ∀ s : State, s.sample.rst = false → s.sample.start = false → s.regs.busy ≠ some true →
    step s = .next { s with inputs := s.inputs.tail }

/-- a running edge before the completing one starts the unit or takes one of its steps, and changes the
working registers and the edges left alone (R195, R32, R43, R44). That the unit starts at the first
running edge and takes one Level S step at each further one is the model's choice (log 6, DESIGN
CHOICE); the edges left are the model's own counter (log 2, DESIGN CHOICE). -/
def Obligations.RunningEdgeKeepsAllButWorkingRegisters : Prop :=
  ∀ s : State, s.sample.rst = false → s.sample.start = false → s.regs.busy = some true →
    1 < s.regs.edgesLeft → ∃ w : Option (Work s.width.bits),
      step s = .next { s with
        inputs := s.inputs.tail
        regs := { s.regs with work := w, edgesLeft := s.regs.edgesLeft - 1 } } ∧
      (∀ c a b, s.regs.work = none → s.regs.cmd = some c → s.regs.opa = some a →
        s.regs.opb = some b → w = startCommand c a b) ∧
      ∀ v, s.regs.work = some v → w = some v.advance

/-- at the completing edge the step is exec of the operation that CMD decodes to (R32). The edges left are
the model's own counter, and that a running core with none left completes too is the model's choice (log
2, DESIGN CHOICE). -/
def Obligations.StepRunsTheDecodedCommand : Prop :=
  ∀ (s : State) (c : CmdWord) (i : Instr), s.sample.rst = false → s.sample.start = false →
    s.regs.busy = some true → s.regs.edgesLeft ≤ 1 → s.regs.cmd = some c → decode c = .ok i →
    step s = exec i { s with inputs := s.inputs.tail }

/-- a reserved word completes with IllegalCommand whatever the operands, and no unit runs (R172, R66, R32).
The edges left are the model's own counter, and that a running core with none left completes too is the
model's choice (log 2, DESIGN CHOICE). -/
def Obligations.ReservedWordCompletesAsIllegalCommand : Prop :=
  (∀ (s : State) (c : CmdWord), s.sample.rst = false → s.sample.start = false →
    s.regs.busy = some true → s.regs.edgesLeft ≤ 1 → s.regs.cmd = some c →
    c.toNat % 16 ∈ [0x2, 0x3, 0xA, 0xB, 0xC, 0xD, 0xE, 0xF] →
    step s = .next { s with
      inputs := s.inputs.tail
      regs := { s.regs with
        busy := some false, done := some true, status := some .illegalCommand
        res := none, flags := none, work := none, edgesLeft := 0 } }) ∧
  (∀ (N : Nat) (c : CmdWord) (a b : Word N),
    c.toNat % 16 ∈ [0x2, 0x3, 0xA, 0xB, 0xC, 0xD, 0xE, 0xF] →
    startCommand c a b = none ∧ outcome c a b = .illegalCommand)

/-- a word placed by withFetchWord runs in the very next step (the model's convention, log 10) (R31, R32). -/
def Obligations.FetchedWordRunsNext : Prop :=
  ∀ (s : State) (w : Nat) (i : Instr), decodeTableWord 8 w = some i →
    ∃ t : State, step (s.withFetchWord 8 w) = exec i t ∧ t.width = s.width ∧
      t.regs.cmd = some (BitVec.ofNat 5 w) ∧ t.regs.opa.isSome ∧ t.regs.opb.isSome

/-- no step changes the width or the latencies of an instance (R5, R20). -/
def Obligations.StepKeepsTheInstance : Prop :=
  ∀ s t : State, step s = .next t → t.width = s.width ∧ t.latency = s.latency

/-- the machine right after reset, or at power-up, meets the invariants (R46, R192). The handshake and
latency invariants speak of edgesLeft, the model's own counter (log 2, DESIGN CHOICE), and the
working-register invariant rests on the model's schedule (log 6, DESIGN CHOICE). -/
def Obligations.ResetMeetsEveryInvariant : Prop :=
  ∀ s : State, ((∃ n l, s = State.resetOf n l) ∨ (∃ n l, s = State.powerUp n l) ∨ s = State.reset) →
    HandshakeInv s.regs ∧ ResultInv s.regs ∧ WorkInv s.regs ∧ LatencyInv s

/-- every step keeps the run-state legal and holds exactly what the run-state says (R29, R31, R32, R44, R46,
R192). The clause that edges are left exactly while running speaks of edgesLeft, the model's own counter
(log 2, DESIGN CHOICE), and is no clause of these rules. -/
def Obligations.StepKeepsTheHandshakeInvariant : Prop :=
  ∀ s t : State, HandshakeInv s.regs → step s = .next t → HandshakeInv t.regs

/-- a finished core always shows the outcome of the command and operands it has latched (R32, R55, R9). -/
def Obligations.StepKeepsTheResultInvariant : Prop :=
  ∀ s t : State, HandshakeInv s.regs → ResultInv s.regs → step s = .next t → ResultInv t.regs

/-- the working registers of a running unit are as initialised or an element of its Level S sequence (R8,
R44, R43). That the registers at a running edge are those initialised or those after a whole step is the
model's schedule (log 6, DESIGN CHOICE), which the spec leaves open. -/
def Obligations.StepKeepsWorkOnTheLevelSSequence : Prop :=
  ∀ s t : State, HandshakeInv s.regs → WorkInv s.regs → step s = .next t → WorkInv t.regs

/-- the model's count of edges left never exceeds LATENCY of the command in flight (R32, R201). The whole
statement is about edgesLeft, the model's own counter (log 2, DESIGN CHOICE), by which the model counts
the edges that R32 and R201 speak of in words. -/
def Obligations.StepKeepsTheLatencyBound : Prop :=
  ∀ s t : State, LatencyInv s → step s = .next t → LatencyInv t

/-- a machine in a legal run-state, driven by the host's rules, always takes a next step (R170, R201). -/
def Obligations.NoStopWhileTheHostKeepsTheRules : Prop :=
  ∀ s : State, HandshakeInv s.regs → hostKeepsRules s = true → ∃ t, step s = .next t

/-- every accepted command completes after LATENCY(op) edges with the outcome exec(N, cmd, a, b) (R31, R32,
R201). -/
def Obligations.AcceptedCommandCompletesWithItsOutcome : Prop :=
  ∀ (s : State) (c : CmdWord) (a b : Word s.width.bits) (quiet rest : List (PortIn s.width.bits)),
    s.regs.busy = some false →
    s.inputs = PortIn.request c a b :: (quiet ++ rest) →
    quiet.length = latencyEdges s.latency c a b →
    (∀ p ∈ quiet, p.rst = false ∧ p.start = false) →
    ∃ r : Regs s.width.bits,
      core.run (1 + quiet.length) s
        = .next { width := s.width, latency := s.latency, inputs := rest, regs := r } ∧
      r.runState = some .finished ∧ r.cmd = some c ∧ r.opa = some a ∧ r.opb = some b ∧
      r.observe = some (outcome c a b) ∧ r.work = none

/-- an operation reads nothing an earlier one left: its outcome depends on OPA and OPB alone (R9, R197). -/
def Obligations.OutcomeDependsOnOperandsAlone : Prop :=
  ∀ (i : Instr) (s : State) (a b : Word s.width.bits) (l : Latency)
    (ins : List (PortIn s.width.bits)) (r : Regs s.width.bits),
    s.regs.opa = some a → s.regs.opb = some b → r.opa = some a → r.opb = some b →
    ∃ r1 r2 : Regs s.width.bits,
      exec i s = .next (s.withRegs r1) ∧
      exec i { width := s.width, latency := l, inputs := ins, regs := r }
        = .next { width := s.width, latency := l, inputs := ins, regs := r2 } ∧
      r1.observe = r2.observe ∧ r1.observe = some (opOutcome i a b)

/-- the output ports give STATUS exactly while finished, and HI, LO and FLAGS exactly when it is Ok (R24,
R28, R30, R45, R196). That a read of an output that is not valid is refused is the model's choice of
form (log 3, DESIGN CHOICE). -/
def Obligations.HostReadsOnlyFinishedResults : Prop :=
  ∀ (N : Nat) (r : Regs N), HandshakeInv r →
    ((∃ v, r.readStatus = .ok v) ↔ r.done = some true) ∧
    (∀ v, r.readStatus = .ok v ↔ r.done = some true ∧ ∃ c, r.status = some c ∧ v = c.code) ∧
    (r.done ≠ some true → r.readStatus = .error (.readOfNoValue .status)) ∧
    ((∃ v, r.readRes = .ok v) ↔ (r.done = some true ∧ r.status = some .ok)) ∧
    (∀ hi lo, r.readRes = .ok (hi, lo) ↔
      r.done = some true ∧ r.status = some .ok ∧ r.res = some (hi ++ lo)) ∧
    (¬ (r.done = some true ∧ r.status = some .ok) →
      r.readRes = .error (.readOfNoValue .res) ∧ r.readFlags = .error (.readOfNoValue .flags)) ∧
    ((∃ f, r.readFlags = .ok f) ↔ (r.done = some true ∧ r.status = some .ok)) ∧
    (∀ f, r.readFlags = .ok f ↔
      r.done = some true ∧ r.status = some .ok ∧ r.flags = some f) ∧
    (r.observe.isSome ↔ r.done = some true) ∧
    (∀ v f, r.observe = some (.ok v f) ↔
      r.done = some true ∧ r.status = some .ok ∧ r.res = some v ∧ r.flags = some f) ∧
    (r.observe = some .divisionByZero ↔
      r.done = some true ∧ r.status = some .divisionByZero) ∧
    (r.observe = some .illegalCommand ↔
      r.done = some true ∧ r.status = some .illegalCommand)

/-- an operation on an operand that holds no value faults (R44). The fault on a read is the model's choice
between the two forms that R44 names, and so is naming OPA where neither operand is held (log 3, DESIGN
CHOICE). -/
def Obligations.UnheldOperandFaults : Prop :=
  ∀ (i : Instr) (s : State),
    (s.regs.opa = none → exec i s = .fault (.holdsNoValue .opa)) ∧
    (∀ a, s.regs.opa = some a → s.regs.opb = none → exec i s = .fault (.holdsNoValue .opb))

/-- ports busy and done give their registers, and are refused only before the first reset (R29, R30, R46,
R192). That a read of a port that holds no value is refused is the model's choice of form (log 3, DESIGN
CHOICE), and that an edge without a request leaves it so before the first reset is its inference from
R192 (log 7, DEDUCED). -/
def Obligations.PortsBusyAndDoneGiveTheirRegisters : Prop :=
  (∀ (N : Nat) (r : Regs N),
    (∀ v, r.readBusy = .ok v ↔ r.busy = some v) ∧ (∀ v, r.readDone = .ok v ↔ r.done = some v) ∧
    (r.readBusy = .error (.readOfNoValue .busy) ↔ r.busy = none) ∧
    (r.readDone = .error (.readOfNoValue .done) ↔ r.done = none)) ∧
  (∀ s t : State, HandshakeInv s.regs → step s = .next t →
    (t.regs.readBusy = .error (.readOfNoValue .busy) ↔
      s.regs.readBusy = .error (.readOfNoValue .busy) ∧ s.sample.rst = false) ∧
    (t.regs.readDone = .error (.readOfNoValue .done) ↔
      s.regs.readDone = .error (.readOfNoValue .done) ∧ s.sample.rst = false)) ∧
  (∀ (n : Width) (l : Latency),
    (State.powerUp n l).regs.readBusy = .error (.readOfNoValue .busy) ∧
    (State.powerUp n l).regs.readDone = .error (.readOfNoValue .done) ∧
    (State.resetOf n l).regs.readBusy = .ok false ∧
    (State.resetOf n l).regs.readDone = .ok false)
end

