-- ==== Sys2Proof/Laws/State.lean ====
section
/-! SUPPORT. One lemma per field per update of the registers and of the machine, each true by definition. -/
namespace Sys2Proof.Machine

/-! ### `reset` -/

@[simp] theorem Regs.reset_busy {N : Nat}  : (Regs.reset N).busy = some false := rfl
@[simp] theorem Regs.reset_done {N : Nat}  : (Regs.reset N).done = some false := rfl
@[simp] theorem Regs.reset_opa {N : Nat}  : (Regs.reset N).opa = none := rfl
@[simp] theorem Regs.reset_opb {N : Nat}  : (Regs.reset N).opb = none := rfl
@[simp] theorem Regs.reset_cmd {N : Nat}  : (Regs.reset N).cmd = none := rfl
@[simp] theorem Regs.reset_res {N : Nat}  : (Regs.reset N).res = none := rfl
@[simp] theorem Regs.reset_flags {N : Nat}  : (Regs.reset N).flags = none := rfl
@[simp] theorem Regs.reset_status {N : Nat}  : (Regs.reset N).status = none := rfl
@[simp] theorem Regs.reset_work {N : Nat}  : (Regs.reset N).work = none := rfl
@[simp] theorem Regs.reset_edgesLeft {N : Nat}  : (Regs.reset N).edgesLeft = 0 := rfl

/-! ### `powerUp` -/

@[simp] theorem Regs.powerUp_busy {N : Nat}  : (Regs.powerUp N).busy = none := rfl
@[simp] theorem Regs.powerUp_done {N : Nat}  : (Regs.powerUp N).done = none := rfl
@[simp] theorem Regs.powerUp_opa {N : Nat}  : (Regs.powerUp N).opa = none := rfl
@[simp] theorem Regs.powerUp_opb {N : Nat}  : (Regs.powerUp N).opb = none := rfl
@[simp] theorem Regs.powerUp_cmd {N : Nat}  : (Regs.powerUp N).cmd = none := rfl
@[simp] theorem Regs.powerUp_res {N : Nat}  : (Regs.powerUp N).res = none := rfl
@[simp] theorem Regs.powerUp_flags {N : Nat}  : (Regs.powerUp N).flags = none := rfl
@[simp] theorem Regs.powerUp_status {N : Nat}  : (Regs.powerUp N).status = none := rfl
@[simp] theorem Regs.powerUp_work {N : Nat}  : (Regs.powerUp N).work = none := rfl
@[simp] theorem Regs.powerUp_edgesLeft {N : Nat}  : (Regs.powerUp N).edgesLeft = 0 := rfl

/-! ### `accepted` -/

@[simp] theorem Regs.accepted_busy {N : Nat} (l : Latency) (c : CmdWord) (a b : Word N) : (Regs.accepted l c a b).busy = some true := rfl
@[simp] theorem Regs.accepted_done {N : Nat} (l : Latency) (c : CmdWord) (a b : Word N) : (Regs.accepted l c a b).done = some false := rfl
@[simp] theorem Regs.accepted_opa {N : Nat} (l : Latency) (c : CmdWord) (a b : Word N) : (Regs.accepted l c a b).opa = some a := rfl
@[simp] theorem Regs.accepted_opb {N : Nat} (l : Latency) (c : CmdWord) (a b : Word N) : (Regs.accepted l c a b).opb = some b := rfl
@[simp] theorem Regs.accepted_cmd {N : Nat} (l : Latency) (c : CmdWord) (a b : Word N) : (Regs.accepted l c a b).cmd = some c := rfl
@[simp] theorem Regs.accepted_res {N : Nat} (l : Latency) (c : CmdWord) (a b : Word N) : (Regs.accepted l c a b).res = none := rfl
@[simp] theorem Regs.accepted_flags {N : Nat} (l : Latency) (c : CmdWord) (a b : Word N) : (Regs.accepted l c a b).flags = none := rfl
@[simp] theorem Regs.accepted_status {N : Nat} (l : Latency) (c : CmdWord) (a b : Word N) : (Regs.accepted l c a b).status = none := rfl
@[simp] theorem Regs.accepted_work {N : Nat} (l : Latency) (c : CmdWord) (a b : Word N) : (Regs.accepted l c a b).work = none := rfl
@[simp] theorem Regs.accepted_edgesLeft {N : Nat} (l : Latency) (c : CmdWord) (a b : Word N) : (Regs.accepted l c a b).edgesLeft = latencyEdges l c a b := rfl

/-! ### `succeed` -/

@[simp] theorem Regs.succeed_busy {N : Nat} (r : Regs N) (v : DWord N) (f : BitVec 4) : (r.succeed v f).busy = some false := rfl
@[simp] theorem Regs.succeed_done {N : Nat} (r : Regs N) (v : DWord N) (f : BitVec 4) : (r.succeed v f).done = some true := rfl
@[simp] theorem Regs.succeed_opa {N : Nat} (r : Regs N) (v : DWord N) (f : BitVec 4) : (r.succeed v f).opa = r.opa := rfl
@[simp] theorem Regs.succeed_opb {N : Nat} (r : Regs N) (v : DWord N) (f : BitVec 4) : (r.succeed v f).opb = r.opb := rfl
@[simp] theorem Regs.succeed_cmd {N : Nat} (r : Regs N) (v : DWord N) (f : BitVec 4) : (r.succeed v f).cmd = r.cmd := rfl
@[simp] theorem Regs.succeed_res {N : Nat} (r : Regs N) (v : DWord N) (f : BitVec 4) : (r.succeed v f).res = some v := rfl
@[simp] theorem Regs.succeed_flags {N : Nat} (r : Regs N) (v : DWord N) (f : BitVec 4) : (r.succeed v f).flags = some f := rfl
@[simp] theorem Regs.succeed_status {N : Nat} (r : Regs N) (v : DWord N) (f : BitVec 4) : (r.succeed v f).status = some .ok := rfl
@[simp] theorem Regs.succeed_work {N : Nat} (r : Regs N) (v : DWord N) (f : BitVec 4) : (r.succeed v f).work = none := rfl
@[simp] theorem Regs.succeed_edgesLeft {N : Nat} (r : Regs N) (v : DWord N) (f : BitVec 4) : (r.succeed v f).edgesLeft = 0 := rfl

/-! ### `fail` -/

@[simp] theorem Regs.fail_busy {N : Nat} (r : Regs N) (c : Status) : (r.fail c).busy = some false := rfl
@[simp] theorem Regs.fail_done {N : Nat} (r : Regs N) (c : Status) : (r.fail c).done = some true := rfl
@[simp] theorem Regs.fail_opa {N : Nat} (r : Regs N) (c : Status) : (r.fail c).opa = r.opa := rfl
@[simp] theorem Regs.fail_opb {N : Nat} (r : Regs N) (c : Status) : (r.fail c).opb = r.opb := rfl
@[simp] theorem Regs.fail_cmd {N : Nat} (r : Regs N) (c : Status) : (r.fail c).cmd = r.cmd := rfl
@[simp] theorem Regs.fail_res {N : Nat} (r : Regs N) (c : Status) : (r.fail c).res = none := rfl
@[simp] theorem Regs.fail_flags {N : Nat} (r : Regs N) (c : Status) : (r.fail c).flags = none := rfl
@[simp] theorem Regs.fail_status {N : Nat} (r : Regs N) (c : Status) : (r.fail c).status = some c := rfl
@[simp] theorem Regs.fail_work {N : Nat} (r : Regs N) (c : Status) : (r.fail c).work = none := rfl
@[simp] theorem Regs.fail_edgesLeft {N : Nat} (r : Regs N) (c : Status) : (r.fail c).edgesLeft = 0 := rfl

/-! ### `advance`: all but the working registers -/

@[simp] theorem Regs.advance_busy {N : Nat} (r : Regs N) : r.advance.busy = r.busy := rfl
@[simp] theorem Regs.advance_done {N : Nat} (r : Regs N) : r.advance.done = r.done := rfl
@[simp] theorem Regs.advance_opa {N : Nat} (r : Regs N) : r.advance.opa = r.opa := rfl
@[simp] theorem Regs.advance_opb {N : Nat} (r : Regs N) : r.advance.opb = r.opb := rfl
@[simp] theorem Regs.advance_cmd {N : Nat} (r : Regs N) : r.advance.cmd = r.cmd := rfl
@[simp] theorem Regs.advance_res {N : Nat} (r : Regs N) : r.advance.res = r.res := rfl
@[simp] theorem Regs.advance_flags {N : Nat} (r : Regs N) : r.advance.flags = r.flags := rfl
@[simp] theorem Regs.advance_status {N : Nat} (r : Regs N) : r.advance.status = r.status := rfl
@[simp] theorem Regs.advance_edgesLeft {N : Nat} (r : Regs N) : r.advance.edgesLeft = r.edgesLeft - 1 := rfl

/-! ### the machine -/

@[simp] theorem State.withRegs_regs (s : State) (r : Regs s.width.bits) :
    (s.withRegs r).regs = r := rfl
@[simp] theorem State.withRegs_width (s : State) (r : Regs s.width.bits) :
    (s.withRegs r).width = s.width := rfl
@[simp] theorem State.withRegs_latency (s : State) (r : Regs s.width.bits) :
    (s.withRegs r).latency = s.latency := rfl
@[simp] theorem State.withRegs_inputs (s : State) (r : Regs s.width.bits) :
    (s.withRegs r).inputs = s.inputs := rfl
@[simp] theorem State.pastSample_regs (s : State) : s.pastSample.regs = s.regs := rfl
@[simp] theorem State.pastSample_width (s : State) : s.pastSample.width = s.width := rfl
@[simp] theorem State.pastSample_latency (s : State) : s.pastSample.latency = s.latency := rfl
@[simp] theorem State.pastSample_inputs (s : State) : s.pastSample.inputs = s.inputs.tail := rfl
@[simp] theorem State.resetOf_regs (n : Width) (l : Latency) :
    (State.resetOf n l).regs = Regs.reset n.bits := rfl
@[simp] theorem State.powerUp_regs (n : Width) (l : Latency) :
    (State.powerUp n l).regs = Regs.powerUp n.bits := rfl
@[simp] theorem PortIn.idle_rst (N : Nat) : (PortIn.idle N).rst = false := rfl
@[simp] theorem PortIn.idle_start (N : Nat) : (PortIn.idle N).start = false := rfl
@[simp] theorem PortIn.request_rst {N : Nat} (c : CmdWord) (a b : Word N) :
    (PortIn.request c a b).rst = false := rfl
@[simp] theorem PortIn.request_start {N : Nat} (c : CmdWord) (a b : Word N) :
    (PortIn.request c a b).start = true := rfl

end Sys2Proof.Machine
end

