-- ==== Sys2Proof/Laws/Ops.lean ====
section
/-! SUPPORT. What each shared operation can do, said once: completion, the completing edge, an edge, the
iteration of Level S steps and its trace. -/
namespace Sys2Proof.Machine

/-! ### Completion -/

/-- Completion on held operands is the next state with the outcome recorded. -/
theorem State.complete_of_held (s : State)
    (f : Word s.width.bits → Word s.width.bits → OpOutcome s.width.bits) {a b : Word s.width.bits}
    (ha : s.regs.opa = some a) (hb : s.regs.opb = some b) :
    s.complete f = .next (s.withRegs (s.regs.finish (f a b))) := by
  simp [State.complete, ha, hb]

/-- If completion answers a next state, both operands were held and that state records the outcome. -/
theorem State.complete_next {s t : State}
    {f : Word s.width.bits → Word s.width.bits → OpOutcome s.width.bits}
    (h : s.complete f = .next t) :
    ∃ a b, s.regs.opa = some a ∧ s.regs.opb = some b ∧
      t = s.withRegs (s.regs.finish (f a b)) := by
  unfold State.complete at h
  split at h
  · next a b ha hb => exact ⟨a, b, ha, hb, by cases h; rfl⟩
  · cases h
  · cases h

/-- Completion is never refused. -/
theorem State.complete_ne_refused (s : State)
    (f : Word s.width.bits → Word s.width.bits → OpOutcome s.width.bits) (r : Refusal) :
    s.complete f ≠ .refused r := by
  unfold State.complete
  split <;> simp

/-- Every operation's meaning is completion with its Level O outcome. -/
theorem exec_eq_complete (i : Instr) (s : State) : exec i s = s.complete (opOutcome i) := by
  cases i <;> rfl

/-- A finished core is in run-state FINISHED whatever the outcome, and keeps its operands and command. -/
theorem Regs.finish_frame {N : Nat} (r : Regs N) (o : OpOutcome N) :
    (r.finish o).busy = some false ∧ (r.finish o).done = some true ∧ (r.finish o).opa = r.opa ∧
      (r.finish o).opb = r.opb ∧ (r.finish o).cmd = r.cmd ∧ (r.finish o).work = none ∧
      (r.finish o).edgesLeft = 0 ∧ (r.finish o).status = some o.status := by
  cases o <;> exact ⟨rfl, rfl, rfl, rfl, rfl, rfl, rfl, rfl⟩

/-! ### Latency -/

/-- Every latency is at least one edge (70_reset_and_hazards R200). -/
theorem latencyEdges_pos {N : Nat} (l : Latency) (c : CmdWord) (a b : Word N) :
    0 < latencyEdges l c a b := by
  unfold latencyEdges
  split <;> omega

/-! ### Edges -/

/-- A running edge before the completing one takes one edge off the count, moves the working registers, and
leaves every other register. -/
theorem Regs.advance_frame {N : Nat} (r : Regs N) :
    r.advance = { r with work := r.advance.work, edgesLeft := r.edgesLeft - 1 } := rfl

/-- Working registers that are held take one Level S step. -/
theorem Regs.advance_work_of_held {N : Nat} {r : Regs N} {w : Work N} (h : r.work = some w) :
    r.advance.work = some w.advance := by simp [Regs.advance, h]

/-- Where none are held, they become those that the latched command initialises. -/
theorem Regs.advance_work_of_none {N : Nat} {r : Regs N} {c : CmdWord} {a b : Word N}
    (h : r.work = none) (hc : r.cmd = some c) (ha : r.opa = some a) (hb : r.opb = some b) :
    r.advance.work = startCommand c a b := by simp [Regs.advance, h, hc, ha, hb]

/-- What one edge can do to the registers of an instance with latencies `l`, under the inputs `p`: reset, stay,
accept, advance, run the latched operation, or fail a reserved word. -/
inductive RegStep {N : Nat} (l : Latency) (p : PortIn N) (r : Regs N) : Regs N → Prop
  | reset (hr : p.rst = true) : RegStep l p r (Regs.reset N)
  | stay (hr : p.rst = false) (hs : p.start = false) (hb : r.busy ≠ some true) : RegStep l p r r
  | accept (hr : p.rst = false) (hs : p.start = true) (hb : r.busy = some false) :
      RegStep l p r (Regs.accepted l p.cmd p.aIn p.bIn)
  | advance (hr : p.rst = false) (hs : p.start = false) (hb : r.busy = some true)
      (hl : 1 < r.edgesLeft) : RegStep l p r r.advance
  | run (hr : p.rst = false) (hs : p.start = false) (hb : r.busy = some true)
      (hl : r.edgesLeft ≤ 1) (c : CmdWord) (i : Instr) (a b : Word N) (hc : r.cmd = some c)
      (hd : decode c = .ok i) (ha : r.opa = some a) (hob : r.opb = some b) :
      RegStep l p r (r.finish (opOutcome i a b))
  | illegal (hr : p.rst = false) (hs : p.start = false) (hb : r.busy = some true)
      (hl : r.edgesLeft ≤ 1) (c : CmdWord) (e : DecodeError) (hc : r.cmd = some c)
      (hd : decode c = .error e) : RegStep l p r (r.finish .illegalCommand)

/-- The machine after an edge that leaves the registers `r`. -/
def State.after (s : State) (r : Regs s.width.bits) : State :=
  { width := s.width, latency := s.latency, inputs := s.inputs.tail, regs := r }

/-- A completing edge with held operands and an operation in `CMD` records its outcome. -/
theorem State.completeCommand_run (s : State) {c : CmdWord} {i : Instr} {a b : Word s.width.bits}
    (hc : s.regs.cmd = some c) (hd : decode c = .ok i) (ha : s.regs.opa = some a)
    (hb : s.regs.opb = some b) :
    s.completeCommand = .next (s.withRegs (s.regs.finish (opOutcome i a b))) := by
  simp only [State.completeCommand, hc, hd, exec_eq_complete]
  exact State.complete_of_held s _ ha hb

/-- A completing edge with a reserved word in `CMD` records the failure. -/
theorem State.completeCommand_reserved (s : State) {c : CmdWord} {e : DecodeError}
    (hc : s.regs.cmd = some c) (hd : decode c = .error e) :
    s.completeCommand = .next (s.withRegs (s.regs.finish .illegalCommand)) := by
  simp only [State.completeCommand, hc, hd]

/-- If the completing edge answers a next state, a command was held, and either it decodes and its
operation ran, or it is reserved and failed. -/
theorem State.completeCommand_next {s t : State} (h : s.completeCommand = .next t) :
    ∃ c, s.regs.cmd = some c ∧
      ((∃ i a b, decode c = .ok i ∧ s.regs.opa = some a ∧ s.regs.opb = some b ∧
          t = s.withRegs (s.regs.finish (opOutcome i a b))) ∨
       (∃ e, decode c = .error e ∧ t = s.withRegs (s.regs.finish .illegalCommand))) := by
  unfold State.completeCommand at h
  split at h
  · cases h
  · next c hc =>
    refine ⟨c, hc, ?_⟩
    split at h
    · next i hi =>
      rw [exec_eq_complete] at h
      obtain ⟨a, b, ha, hb, ht⟩ := State.complete_next h
      exact .inl ⟨i, a, b, hi, ha, hb, ht⟩
    · next e he => exact .inr ⟨e, he, by cases h; rfl⟩

/-- Everything a step that answers a next state can do. -/
theorem step_next {s t : State} (h : step s = .next t) :
    ∃ r, t = s.after r ∧ RegStep s.latency s.sample s.regs r := by
  unfold step State.edge at h
  split at h
  · next hr => exact ⟨_, by cases h; rfl, .reset hr⟩
  · next hr =>
    replace hr : s.sample.rst = false := by simpa using hr
    split at h
    · next hb =>
      split at h
      · cases h
      · next hs => exact ⟨_, by cases h; rfl, .stay hr (by simpa using hs) (by simp [hb])⟩
    · next hb =>
      split at h
      · cases h
      · next hs =>
        replace hs : s.sample.start = false := by simpa using hs
        split at h
        · next hl =>
          obtain ⟨c, hc, ⟨i, a, b, hd, ha, hob, rfl⟩ | ⟨e, hd, rfl⟩⟩ :=
            State.completeCommand_next h
          · exact ⟨_, rfl, .run hr hs hb hl c i a b hc hd ha hob⟩
          · exact ⟨_, rfl, .illegal hr hs hb hl c e hc hd⟩
        · next hl => exact ⟨_, by cases h; rfl, .advance hr hs hb (by omega)⟩
    · next hb =>
      split at h
      · next hs => exact ⟨_, by cases h; rfl, .accept hr hs hb⟩
      · next hs => exact ⟨_, by cases h; rfl, .stay hr (by simpa using hs) (by simp [hb])⟩

/-- What an edge can do, a step does. -/
theorem step_of_regStep (s : State) {r : Regs s.width.bits}
    (h : RegStep s.latency s.sample s.regs r) : step s = .next (s.after r) := by
  unfold step State.edge
  cases h with
  | reset hr => simp only [hr, if_true]; rfl
  | stay hr hs hb =>
    rcases hbusy : s.regs.busy with _ | _ | _
    · simp only [hr, hs, Bool.false_eq_true, if_false]; rfl
    · simp only [hr, hs, Bool.false_eq_true, if_false]; rfl
    · exact absurd hbusy hb
  | accept hr hs hb => simp only [hr, hs, hb, Bool.false_eq_true, if_false, if_true]; rfl
  | advance hr hs hb hl =>
    simp only [hr, hs, hb, Bool.false_eq_true, if_false, Nat.not_le.mpr hl]; rfl
  | run hr hs hb hl c i a b hc hd ha hob =>
    simp only [hr, hs, hb, hl, Bool.false_eq_true, if_false, if_true]
    exact State.completeCommand_run s.pastSample hc hd ha hob
  | illegal hr hs hb hl c e hc hd =>
    simp only [hr, hs, hb, hl, Bool.false_eq_true, if_false, if_true]
    exact State.completeCommand_reserved s.pastSample hc hd

/-! ### Level S steps -/

@[simp] theorem iterate_zero {α : Type} (f : α → α) (x : α) : iterate f 0 x = x := rfl

@[simp] theorem iterate_succ {α : Type} (f : α → α) (k : Nat) (x : α) :
    iterate f (k + 1) x = f (iterate f k x) := rfl

/-- A trace holds the contents after each of the `k` steps. -/
theorem traceOf_eq_map {α : Type} (f : α → α) (k : Nat) (x : α) :
    traceOf f k x = (List.range k).map (fun j => iterate f (j + 1) x) := by
  induction k with
  | zero => rfl
  | succ k ih => rw [List.range_succ, List.map_append, ← ih]; rfl

@[simp] theorem length_traceOf {α : Type} (f : α → α) (k : Nat) (x : α) :
    (traceOf f k x).length = k := by simp [traceOf_eq_map]

/-- The last element of a trace is what the steps end with. -/
theorem getLast?_traceOf {α : Type} (f : α → α) (k : Nat) (x : α) :
    (traceOf f (k + 1) x).getLast? = some (iterate f (k + 1) x) := by simp [traceOf]

/-- The elements of a trace are the contents after one step or more, up to `k`. -/
theorem mem_traceOf {α : Type} (f : α → α) (k : Nat) (x y : α) :
    y ∈ traceOf f k x ↔ ∃ j < k, iterate f (j + 1) x = y := by
  simp only [traceOf_eq_map, List.mem_map, List.mem_range]

end Sys2Proof.Machine
end

