-- ==== Sys2Proof/Laws/PerInstr.lean ====
section
/-! SUPPORT. The families of statements made once for each constructor of `Instr`. -/
namespace Sys2Proof.Laws

/-- The encoding of an operation is one of the sixteen legal words of 30_encoding R61, carries the mode in
`S` and leaves no other field open. -/
def EncodesLegally.Statement (i : Instr) : Prop :=
  i.wellFormed = true ∧ cmdWordLegal (encode i).toNat = true ∧ fieldS (encode i) = i.mode.bit

theorem EncodesLegally.add (m : Mode) : EncodesLegally.Statement (.add m) := by
  cases m <;> exact ⟨rfl, by decide, by decide⟩
theorem EncodesLegally.sub (m : Mode) : EncodesLegally.Statement (.sub m) := by
  cases m <;> exact ⟨rfl, by decide, by decide⟩
theorem EncodesLegally.mulSeq (m : Mode) : EncodesLegally.Statement (.mulSeq m) := by
  cases m <;> exact ⟨rfl, by decide, by decide⟩
theorem EncodesLegally.mulNaive (m : Mode) : EncodesLegally.Statement (.mulNaive m) := by
  cases m <;> exact ⟨rfl, by decide, by decide⟩
theorem EncodesLegally.mulBooth2 (m : Mode) : EncodesLegally.Statement (.mulBooth2 m) := by
  cases m <;> exact ⟨rfl, by decide, by decide⟩
theorem EncodesLegally.mulBooth4 (m : Mode) : EncodesLegally.Statement (.mulBooth4 m) := by
  cases m <;> exact ⟨rfl, by decide, by decide⟩
theorem EncodesLegally.divRest (m : Mode) : EncodesLegally.Statement (.divRest m) := by
  cases m <;> exact ⟨rfl, by decide, by decide⟩
theorem EncodesLegally.divNrest (m : Mode) : EncodesLegally.Statement (.divNrest m) := by
  cases m <;> exact ⟨rfl, by decide, by decide⟩

end Sys2Proof.Laws
end

