-- ==== Sys2Proof/Tests/Slice0.lean ====
section
/-! SUPPORT. Named tests. Expected values come from spec/95_test_vectors.md and spec/96_step_traces.md, or from the
words of spec/30_encoding.md, never from the model. The `witness_` theorems show, for each statement with
hypotheses, a state and operands that meet them together. -/
namespace Sys2Proof.Tests
open Sys2Proof.Machine

/-- A width above zero. -/
def w (n : Nat) (h : 0 < n := by decide) : Width := ⟨n, h⟩

/-- An instance in which every operation takes three edges. -/
def threeEdges : Latency := ⟨2, []⟩

/-- A running core of width `n` with a command latched, `left` edges to go, and the given inputs to come. -/
def running (n : Width) (c : CmdWord) (a b : Nat) (left : Nat := 1)
    (inputs : List (PortIn n.bits) := []) : State :=
  { width := n, latency := threeEdges, inputs := inputs
    regs := { Regs.accepted threeEdges c (BitVec.ofNat n.bits a) (BitVec.ofNat n.bits b) with
              edgesLeft := left } }

/-- What a finished step shows: `HI`, `LO`, `FLAGS` and the code of `STATUS`, where they are held. -/
def shown : Host.Outcome State Fault Refusal →
    Option (Option Nat × Option Nat × Option Nat × Option Nat)
  | .next t => some (t.regs.res.map (fun r => (hiHalf r).toNat), t.regs.res.map (fun r => (loHalf r).toNat),
      t.regs.flags.map BitVec.toNat, t.regs.status.map (fun c => c.code.toNat))
  | _ => none

/-- Success with `HI`, `LO` and `FLAGS`. -/
def okShown (hi lo flags : Nat) : Option (Option Nat × Option Nat × Option Nat × Option Nat) :=
  some (some hi, some lo, some flags, some 0)

/-! ### Well-formedness: what each check refuses and takes (60_exceptions R174, 30_encoding R60, R66, 20_memory R52) -/

theorem test_width_zero_refused : widthOk 0 = false := by decide
theorem test_width_negative_refused : widthOk (-3) = false := by decide
theorem test_width_one_taken : widthOk 1 = true := by decide
theorem test_configure_zero_is_invalid : configure 0 = none ∧ configure (-3) = none := by decide
theorem test_six_bit_word_refused : cmdWordFits 32 = false := by decide
theorem test_reserved_word_not_legal : cmdWordLegal 0x1A = false ∧ cmdWordLegal 0x20 = false := by decide
theorem test_operand_too_wide_refused : operandFits (w 8) 256 = false := by decide
theorem test_instr_well_formed : (Instr.divNrest .signed).wellFormed = true := by decide

/-! ### Decoding: words written out from spec/30_encoding.md R60, R61 as S, CLS, ALG -/

theorem test_decode_add : decode 0b00000#5 = .ok (.add .unsigned) ∧ decode 0b10000#5 = .ok (.add .signed) := by decide
theorem test_decode_sub : decode 0b00001#5 = .ok (.sub .unsigned) ∧ decode 0b10001#5 = .ok (.sub .signed) := by decide
theorem test_decode_mulSeq : decode 0b00100#5 = .ok (.mulSeq .unsigned) ∧ decode 0b10100#5 = .ok (.mulSeq .signed) := by decide
theorem test_decode_mulNaive : decode 0b00101#5 = .ok (.mulNaive .unsigned) ∧ decode 0b10101#5 = .ok (.mulNaive .signed) := by decide
theorem test_decode_mulBooth2 : decode 0b00110#5 = .ok (.mulBooth2 .unsigned) ∧ decode 0b10110#5 = .ok (.mulBooth2 .signed) := by decide
theorem test_decode_mulBooth4 : decode 0b00111#5 = .ok (.mulBooth4 .unsigned) ∧ decode 0b10111#5 = .ok (.mulBooth4 .signed) := by decide
theorem test_decode_divRest : decode 0b01000#5 = .ok (.divRest .unsigned) ∧ decode 0b11000#5 = .ok (.divRest .signed) := by decide
theorem test_decode_divNrest : decode 0b01001#5 = .ok (.divNrest .unsigned) ∧ decode 0b11001#5 = .ok (.divNrest .signed) := by decide
theorem test_decode_reserved : decode 0b00010#5 = .error (.reserved 0b00010#5) ∧
    decode 0b11111#5 = .error (.reserved 0b11111#5) := by decide
theorem test_table_word : decodeTableWord 8 0x16 = some (.mulBooth2 .signed) ∧ decodeTableWord 8 0x0A = none ∧
    decodeTableWord 8 0x20 = none := by decide

/-! ### One completing edge for each operation (spec/95_test_vectors.md 2.2, 2.3, 2.5) -/

theorem test_add_carries_and_sets_no_overflow :  -- ADD.u 200, 80
    shown (step (running (w 8) 0x00 0xC8 0x50)) = okShown 0x00 0x18 0x1 := by decide
theorem test_sub_overflows_on_most_negative :  -- SUB.s 0, -128
    shown (step (running (w 8) 0x11 0x00 0x80)) = okShown 0x00 0x80 0x6 := by decide
theorem test_mulSeq_most_negative_squared :  -- MUL.SEQ.s -128, -128
    shown (step (running (w 8) 0x14 0x80 0x80)) = okShown 0x40 0x00 0x0 := by decide
theorem test_mulNaive_negative :  -- MUL.NAIVE.s -100, 50
    shown (step (running (w 8) 0x15 0x9C 0x32)) = okShown 0xEC 0x78 0x4 := by decide
theorem test_mulBooth2_doc_scenario :  -- MUL.BOOTH2.s -123, 77 at N = 16
    shown (step (running (w 16) 0x16 0xFF85 0x004D)) = okShown 0xFFFF 0xDB01 0x4 := by decide +kernel
theorem test_mulBooth4_odd_width :  -- MUL.BOOTH4.s 1, -4 at N = 3
    shown (step (running (w 3) 0x17 0x1 0x4)) = okShown 0x7 0x4 0x4 := by decide
theorem test_divRest_wraps_most_negative_by_minus_one :  -- DIV.REST.s -128, -1
    shown (step (running (w 8) 0x18 0x80 0xFF)) = okShown 0x00 0x80 0x6 := by decide
theorem test_divNrest_remainder_has_dividend_sign :  -- DIV.NREST.s -100, 7
    shown (step (running (w 8) 0x19 0x9C 0x07)) = okShown 0xFE 0xF2 0x4 := by decide

/-! ### Level S: working registers from spec/95_test_vectors.md 2.2 and spec/96_step_traces.md -/

theorem test_add_carry_vector :  -- ADD.s 127, 1: c[0..8] = 011111110
    (chain 0x7F#8 0x01#8 false).c = [false, true, true, true, true, true, true, true, false] := by decide
theorem test_sub_carry_vector :  -- SUB.s 3, -6 at N = 4: c[0..4] = 11110
    (chain 0x3#4 (~~~0xA#4) true).c = [true, true, true, true, false] := by decide
theorem test_mulSeq_trace :  -- MUL.SEQ.s -3, 5 at N = 4, after step 2
    (levelS (.mulSeq .signed) 0xD#4 0x5#4)[2]? = some (.seq ⟨0x0F, 0x18, 0b0000, true, 3⟩) := by decide
theorem test_level_s_one_element_per_step :  -- the tables of 96_step_traces.md; R110: PP[0..3], then SUM
    (levelS (.mulSeq .signed) 0xD#4 0x5#4).length = 4 ∧ (levelS (.mulNaive .unsigned) 0xF#4 0xF#4).length = 5 ∧
      (levelS (.mulBooth4 .unsigned) 0x7#3 0x7#3).length = 2 := by decide
theorem test_mulNaive_partial_products :  -- MUL.NAIVE.u 15, 15 at N = 4
    (naiveRun .unsigned 0xF#4 0xF#4).pp = [0x0F, 0x1E, 0x3C, 0x78] ∧
      (naiveRun .unsigned 0xF#4 0xF#4).sum = some 0xE1 := by decide
theorem test_mulBooth2_trace :  -- MUL.BOOTH2.s -8, 1 at N = 4, after step 1
    (levelS (.mulBooth2 .signed) 0x8#4 0x1#4)[1]?
      = some (.booth2 ⟨0b11000, 0b1110, 0b0000, false, some 0b11100, 2⟩) := by decide
theorem test_mulBooth4_trace :  -- MUL.BOOTH4.u 7, 7 at N = 3, after step 0
    (levelS (.mulBooth4 .unsigned) 0x7#3 0x7#3)[0]?
      = some (.booth4 ⟨0b00111, 0b110, 0b0101, true, some 0b11001, 1⟩) := by decide
theorem test_divRest_trace :  -- DIV.REST.u 14, 9 at N = 4, after step 3
    (levelS (.divRest .unsigned) 0xE#4 0x9#4)[3]?
      = some (.rest ⟨0b0101, 0b0001, 0b1001, some 0b00101, false, false, 4⟩) := by decide
theorem test_divNrest_trace :  -- DIV.NREST.u 13, 1 at N = 4, after step 2
    (levelS (.divNrest .unsigned) 0xD#4 0x1#4)[2]?
      = some (.nrest ⟨0b11111, 0b1110, 0b0001, false, false, 3⟩) := by decide

/-! ### The handshake (spec/95_test_vectors.md 2.7) -/

theorem test_v1_reset_edge_does_not_sample_start :
    step { State.powerUp (w 8) threeEdges with inputs := [⟨true, true, 0x00, 0x01, 0x01⟩] }
      = .next (State.resetOf (w 8) threeEdges) := rfl
theorem test_v1_accept :
    step { State.resetOf (w 8) threeEdges with inputs := [PortIn.request 0x00 0xC8 0x50] }
      = .next (running (w 8) 0x00 0xC8 0x50 3) := rfl
theorem test_v3_start_while_busy_refused :
    step (running (w 8) 0x08 0x64 0x07 3 [PortIn.request 0x00 0x01 0x01])
      = .refused .startWhileBusy := rfl
theorem test_v4_divide_by_zero :
    shown (step (running (w 8) 0x08 0x2A 0x00)) = some (none, none, none, some 1) := by decide
theorem test_v5_reserved_word :
    shown (step (running (w 8) 0x0A 0x05 0x00)) = some (none, none, none, some 2) := by decide
theorem test_v6_reset_during_operation :
    step (running (w 8) 0x14 0xFD 0x05 1 [⟨true, false, 0, 0, 0⟩])
      = .next (State.resetOf (w 8) threeEdges) := rfl
theorem test_command_before_reset_refused :
    step { State.powerUp (w 8) threeEdges with inputs := [PortIn.request 0x00 0xC8 0x50] }
      = .refused .commandBeforeReset := rfl
theorem test_fetched_word_runs_from_reset :
    shown (step (State.reset.withFetchWord 8 0x19)) = okShown 0x00 0x01 0x0 := by decide
theorem test_latency_table :
    latencyEdges ⟨2, [⟨0x08, 100, 7, 9⟩]⟩ 0x08 0x64#8 0x07#8 = 10 ∧
      latencyEdges ⟨2, [⟨0x08, 100, 7, 9⟩]⟩ 0x08 0x64#8 0x06#8 = 3 := by decide
theorem test_result_not_readable_while_running :
    (running (w 8) 0x00 0xC8 0x50).regs.readRes = .error (.readOfNoValue .res) ∧
      (running (w 8) 0x00 0xC8 0x50).regs.observe = none := by decide

/-! ### Witnesses -/

/-- A running divide of `-128` by `-1` at width 8, one edge from completion. -/
def corner : State := running (w 8) 0x18 0x80 0xFF

/-- A running divide by zero. -/
def byZero : State := running (w 8) 0x09 0x00 0x00

/-- A running `MUL.SEQ.s -3, 5` before its first running edge. -/
def starting : State := running (w 8) 0x14 0xFD 0x05 2

/-- The same with its working registers initialised and two edges left. -/
def midway : State :=
  starting.withRegs { starting.regs with work := some (.seq (SeqRegs.start .signed 0xFD#8 0x05#8)) }

/-- A core that has finished `200 + 80`. -/
def finished : State :=
  (running (w 8) 0x00 0xC8 0x50).withRegs
    ((running (w 8) 0x00 0xC8 0x50).regs.succeed 0x0018#16 0x1#4)

/-- The running core is in a legal run-state, one edge before it completes or more. -/
theorem running_handshake (n : Width) (c : CmdWord) (a b left : Nat) (inputs : List (PortIn n.bits))
    (h : 0 < left) : HandshakeInv (running n c a b left inputs).regs := by
  constructor <;> simp [running, Regs.accepted, h]

theorem witness_AddWritesSumAndFlags : corner.regs.opa = some 0x80#8 ∧ corner.regs.opb = some 0xFF#8 := ⟨rfl, rfl⟩
theorem witness_SubWritesDifferenceAndFlags : corner.regs.opa = some 0x80#8 ∧ corner.regs.opb = some 0xFF#8 := ⟨rfl, rfl⟩
theorem witness_AddSubModeChangesOnlyNegative : corner.regs.opa = some 0x80#8 ∧ corner.regs.opb = some 0xFF#8 := ⟨rfl, rfl⟩
theorem witness_MulSeqWritesProduct : corner.regs.opa = some 0x80#8 ∧ corner.regs.opb = some 0xFF#8 := ⟨rfl, rfl⟩
theorem witness_MulNaiveWritesProduct : corner.regs.opa = some 0x80#8 ∧ corner.regs.opb = some 0xFF#8 := ⟨rfl, rfl⟩
theorem witness_MulBooth2WritesProduct : corner.regs.opa = some 0x80#8 ∧ corner.regs.opb = some 0xFF#8 := ⟨rfl, rfl⟩
theorem witness_MulBooth4WritesProduct : corner.regs.opa = some 0x80#8 ∧ corner.regs.opb = some 0xFF#8 := ⟨rfl, rfl⟩
theorem witness_DivRestWritesQuotientAndRemainder : corner.regs.opa = some 0x80#8 ∧ corner.regs.opb = some 0xFF#8 ∧
    0xFF#8 ≠ 0#8 := ⟨rfl, rfl, by decide⟩
theorem witness_DivNrestWritesQuotientAndRemainder : corner.regs.opa = some 0x80#8 ∧ corner.regs.opb = some 0xFF#8 ∧
    0xFF#8 ≠ 0#8 := ⟨rfl, rfl, by decide⟩
theorem witness_MostNegativeByMinusOneWraps :
    (corner.regs.opa = some (BitVec.intMin 8) ∧ corner.regs.opb = some (BitVec.allOnes 8)) ∧
    (0 < 1 ∧ 1#1 ≠ 0#1 ∧
      ¬ (Mode.unsigned = .signed ∧ 1#1 = BitVec.intMin 1 ∧ 1#1 = BitVec.allOnes 1)) := ⟨⟨rfl, rfl⟩, by decide⟩
theorem witness_DivideByZeroFails :
    byZero.regs.opa = some 0#8 ∧ byZero.regs.opb = some 0#8 := ⟨rfl, rfl⟩
theorem witness_OutcomeDependsOnOperandsAlone : corner.regs.opa = some 0x80#8 ∧
    corner.regs.opb = some 0xFF#8 ∧ (corner.regs.fail .illegalCommand).opa = some 0x80#8 ∧
    (corner.regs.fail .illegalCommand).opb = some 0xFF#8 := ⟨rfl, rfl, rfl, rfl⟩
theorem witness_UnheldOperandFaults : State.reset.regs.opa = none ∧
    (Regs.reset 8).opb = none ∧
    (State.reset.withRegs { Regs.reset 8 with opa := some 1 }).regs.opa = some 1#8 ∧
    (State.reset.withRegs { Regs.reset 8 with opa := some 1 }).regs.opb = none := ⟨rfl, rfl, rfl, rfl⟩
theorem witness_ConfigureRefusesExactlyNonPositiveWidths :
    configure 1 = some (w 1) ∧ configure 0 = none := by decide
theorem witness_LoadingAnIntegerMasksIt : 0 < 1 ∧ (fromInt 1 (-1)).toNat = 1 := by decide
theorem witness_ExtensionKeepsTheLogicalValue : 1 < 2 ∧ val .signed (ext 2 .signed 1#1) = -1 := by decide
theorem witness_MagnitudeIsTheAbsoluteValue : 0 < 4 ∧ (mag .signed 0x8#4).toNat = 8 := by decide
theorem witness_ChainAddsItsInputs : 4 ≤ 4 ∧ (chain 0x9#4 0x7#4 false).carry 4 = true := by decide
theorem witness_OverflowRulesAgreeOnTheChain : 0 < 1 ∧ (chain 1#1 1#1 false).carry 1 = true := by decide
theorem witness_SubFlagsCompareTheOperands : 0 < 1 := by decide
theorem witness_MulSeqStepInvariant : 0 ≤ 4 ∧ 4 ≤ 4 := by decide
theorem witness_MulBooth2StepInvariant : (1 ≤ 1 ∧ 1 ≤ 4) ∧ 1 ≤ 4 ∧ 4 ≤ 4 := by decide
theorem witness_MulBooth4StepInvariant : (1 ≤ 1 ∧ 1 ≤ booth4Steps 3) ∧ 1 ≤ 2 ∧ 2 ≤ booth4Steps 3 := by decide
theorem test_boothDigit_table :  -- 41_multipliers R123, windows 000 to 111
    [boothDigit false false false, boothDigit false false true, boothDigit false true false,
      boothDigit false true true, boothDigit true false false, boothDigit true false true,
      boothDigit true true false, boothDigit true true true]
      = [.zero, .plusOne, .plusOne, .plusTwo, .minusTwo, .minusOne, .minusOne, .zero] := by decide
theorem test_ports_after_completion :  -- DIV.NREST.s -100, 7: HI is the remainder, LO the quotient
    ((running (w 8) 0x19 0x9C 0x07).regs.finish (divNrestOutcome .signed 0x9C#8 0x07#8)).readRes
      = .ok (0xFE#8, 0xF2#8) := by rfl
theorem witness_ProductLawOfAllMultipliers : 0 < 1 ∧ Instr.mulBooth4 .signed ∈
    [Instr.mulSeq .signed, .mulNaive .signed, .mulBooth2 .signed, .mulBooth4 .signed] := by decide
theorem witness_RestoringStepInvariant : 9#4 ≠ 0#4 ∧ (1 ≤ 1 ∧ 1 ≤ 4) ∧ 1 ≤ 4 ∧ 4 ≤ 4 := by decide
theorem witness_NonRestoringStepInvariant : 1#1 ≠ 0#1 ∧ 1 ≤ 1 ∧ 1 ≤ 1 := by decide
theorem witness_DividersAgreeStepByStep : 9#4 ≠ 0#4 ∧ 1 ≤ 4 ∧ 4 ≤ 4 := by decide
theorem witness_DivisionLaw :
    0 < 8 ∧ 0xFF#8 ≠ 0#8 ∧
    (∃ r f, opOutcome (.divRest .signed) 0x80#8 0xFF#8 = .ok r f ∧ flagV f = true) ∧
    ∃ r f, opOutcome (.divRest .signed) 0x81#8 0xFF#8 = .ok r f ∧ flagV f = false :=
  ⟨by decide, by decide, ⟨0x0080#16, 0x6#4, by decide⟩, ⟨0x007F#16, 0x0#4, by decide⟩⟩
theorem witness_LevelSYieldsLevelO : 0 < 1 ∧
    (levelS (.divRest .unsigned) 1#1 1#1).getLast?
      = some (.rest ⟨0, 1, 1, some 0, false, false, 1⟩) := by decide
theorem witness_LevelSHasTheStatedStepCounts :
    levelS (.divRest .unsigned) 3#2 0#2 = [] ∧ (levelS (.sub .unsigned) 3#2 0#2).length = 2 ∧
    startWork (.divRest .unsigned) 3#2 1#2 = some (.rest ⟨0, 3, 1, none, false, false, 0⟩) ∧
    (levelS (.divRest .unsigned) 3#2 1#2)[0]? = some (.rest ⟨0, 3, 1, some 0, false, false, 1⟩) ∧
    (levelS (.divRest .unsigned) 3#2 1#2)[0 + 1]? = some (.rest ⟨0, 3, 1, some 0, false, false, 2⟩) ∧
    (levelS (.mulNaive .unsigned) 1#1 1#1)[0]? = some (.naive ⟨1, 1, [1], none, false, 1⟩) ∧
    (levelS (.mulNaive .unsigned) 1#1 1#1)[1]? = some (.naive ⟨1, 1, [1], some 1, false, 1⟩) := by decide
theorem witness_ResetEdgeResetsEveryState :
    (running (w 8) 0x14 0xFD 0x05 1 [⟨true, true, 0, 0, 0⟩]).sample.rst = true := by decide
theorem witness_AcceptanceLatchesTheCommand :
    (State.sample { finished with inputs := [PortIn.request 0x1F 1 2] }).rst = false ∧
    (State.sample { finished with inputs := [PortIn.request 0x1F 1 2] }).start = true ∧
    finished.regs.busy = some false := by decide
theorem witness_StartWhileBusyIsRefused :
    (running (w 8) 0x08 0x64 0x07 3 [PortIn.request 0 1 1]).sample.rst = false ∧
    (running (w 8) 0x08 0x64 0x07 3 [PortIn.request 0 1 1]).sample.start = true ∧
    (running (w 8) 0x08 0x64 0x07 3 [PortIn.request 0 1 1]).regs.busy = some true := by decide
theorem witness_CommandBeforeResetIsRefused :
    (State.sample { State.powerUp (w 8) threeEdges with inputs := [PortIn.request 0 1 1] }).rst = false ∧
    (State.sample { State.powerUp (w 8) threeEdges with inputs := [PortIn.request 0 1 1] }).start = true ∧
    (State.powerUp (w 8) threeEdges).regs.busy = none := by decide
theorem witness_EdgeWithoutRequestKeepsTheRegisters :
    (finished.sample.rst = false ∧ finished.sample.start = false ∧ finished.regs.busy ≠ some true) ∧
    (State.powerUp (w 8) threeEdges).regs.busy ≠ some true := by decide
theorem witness_RunningEdgeKeepsAllButWorkingRegisters :
    starting.sample.rst = false ∧ starting.sample.start = false ∧ starting.regs.busy = some true ∧
    1 < starting.regs.edgesLeft ∧ starting.regs.work = none ∧ starting.regs.cmd = some 0x14#5 ∧
    starting.regs.opa = some 0xFD#8 ∧ starting.regs.opb = some 0x05#8 :=
  ⟨rfl, rfl, rfl, by decide, rfl, rfl, rfl, rfl⟩
theorem witness_RunningEdgeKeepsAllButWorkingRegisters_at_work :
    midway.sample.rst = false ∧ midway.sample.start = false ∧ midway.regs.busy = some true ∧
    1 < midway.regs.edgesLeft ∧ midway.regs.work = some (.seq (SeqRegs.start .signed 0xFD#8 0x05#8)) :=
  ⟨rfl, rfl, rfl, by decide, rfl⟩
theorem witness_StepRunsTheDecodedCommand :
    corner.sample.rst = false ∧ corner.sample.start = false ∧ corner.regs.busy = some true ∧
    corner.regs.edgesLeft ≤ 1 ∧ corner.regs.cmd = some 0x18#5 ∧
    decode 0x18#5 = .ok (.divRest .signed) := by decide
theorem witness_StepRunsTheDecodedCommand_none_left :
    (running (w 8) 0x18 0x80 0xFF 0).sample.rst = false ∧
    (running (w 8) 0x18 0x80 0xFF 0).sample.start = false ∧
    (running (w 8) 0x18 0x80 0xFF 0).regs.busy = some true ∧
    (running (w 8) 0x18 0x80 0xFF 0).regs.edgesLeft ≤ 1 ∧
    (running (w 8) 0x18 0x80 0xFF 0).regs.cmd = some 0x18#5 ∧
    decode 0x18#5 = .ok (.divRest .signed) := by decide
theorem witness_ReservedWordCompletesAsIllegalCommand :
    (running (w 8) 0x1A 1 0).sample.rst = false ∧ (running (w 8) 0x1A 1 0).sample.start = false ∧
    (running (w 8) 0x1A 1 0).regs.busy = some true ∧ (running (w 8) 0x1A 1 0).regs.edgesLeft ≤ 1 ∧
    (running (w 8) 0x1A 1 0).regs.cmd = some 0x1A#5 ∧
    (0x1A#5).toNat % 16 ∈ [0x2, 0x3, 0xA, 0xB, 0xC, 0xD, 0xE, 0xF] := by decide
theorem witness_ReservedWordCompletesAsIllegalCommand_none_left :
    (running (w 8) 0x0F 1 0 0).sample.rst = false ∧ (running (w 8) 0x0F 1 0 0).sample.start = false ∧
    (running (w 8) 0x0F 1 0 0).regs.busy = some true ∧ (running (w 8) 0x0F 1 0 0).regs.edgesLeft ≤ 1 ∧
    (running (w 8) 0x0F 1 0 0).regs.cmd = some 0x0F#5 ∧
    (0x0F#5).toNat % 16 ∈ [0x2, 0x3, 0xA, 0xB, 0xC, 0xD, 0xE, 0xF] := by decide
theorem witness_FetchedWordRunsNext : decodeTableWord 8 0x19 = some (.divNrest .signed) := by decide
theorem witness_StepKeepsTheInstance : ∃ t, step State.reset = .next t := ⟨_, rfl⟩
theorem witness_ResetMeetsEveryInvariant :
    (∃ n l, State.reset = State.resetOf n l) ∧ ∃ n l, State.powerUp (w 1) threeEdges = State.powerUp n l :=
  ⟨⟨_, _, rfl⟩, ⟨_, _, rfl⟩⟩
theorem witness_StepKeepsTheHandshakeInvariant :
    HandshakeInv corner.regs ∧ ∃ t, step corner = .next t :=
  ⟨running_handshake _ _ _ _ _ _ (by decide),
    ⟨_, rfl⟩⟩
theorem witness_StepKeepsTheResultInvariant :
    HandshakeInv corner.regs ∧ ResultInv corner.regs ∧ ∃ t, step corner = .next t :=
  ⟨running_handshake _ _ _ _ _ _ (by decide), fun h => absurd h (by decide),
    ⟨_, rfl⟩⟩
theorem witness_StepKeepsWorkOnTheLevelSSequence :
    HandshakeInv (running (w 8) 0x00 1 2 2).regs ∧ WorkInv (running (w 8) 0x00 1 2 2).regs ∧
    ∃ t, step (running (w 8) 0x00 1 2 2) = .next t :=
  ⟨running_handshake _ _ _ _ _ _ (by decide), (by intro x h; exact absurd h (by simp [running, Regs.accepted])), ⟨_, rfl⟩⟩
theorem witness_StepKeepsTheLatencyBound :
    LatencyInv corner ∧ ∃ t, step corner = .next t :=
  ⟨fun _ => ⟨0x18#5, 0x80#8, 0xFF#8, rfl, rfl, rfl, by decide⟩,
    ⟨_, rfl⟩⟩
theorem witness_NoStopWhileTheHostKeepsTheRules :
    HandshakeInv corner.regs ∧ hostKeepsRules corner = true :=
  ⟨running_handshake _ _ _ _ _ _ (by decide), by decide⟩
theorem witness_AcceptedCommandCompletesWithItsOutcome :
    ∃ (s : State) (quiet rest : List (PortIn s.width.bits)) (a b : Word s.width.bits),
      s.regs.busy = some false ∧ s.inputs = PortIn.request 0x1A#5 a b :: (quiet ++ rest) ∧
      quiet.length = latencyEdges s.latency 0x1A#5 a b ∧
      ∀ p ∈ quiet, p.rst = false ∧ p.start = false :=
  ⟨{ State.resetOf (w 8) threeEdges with
      inputs := [PortIn.request 0x1A#5 1#8 2#8, .idle 8, .idle 8, .idle 8] },
    [.idle 8, .idle 8, .idle 8], [], 1#8, 2#8, rfl, rfl, rfl, by decide⟩
theorem witness_HostReadsOnlyFinishedResults : HandshakeInv finished.regs ∧
    (finished.regs.done = some true ∧ finished.regs.status = some .ok) := by
  refine ⟨?_, rfl, rfl⟩
  constructor <;> simp [finished, running, Regs.accepted, Regs.succeed, State.withRegs]
  rfl
theorem witness_HostReadsOnlyFinishedResults_refused :
    HandshakeInv corner.regs ∧ corner.regs.done ≠ some true ∧
    ¬ (corner.regs.done = some true ∧ corner.regs.status = some .ok) :=
  ⟨running_handshake _ _ _ _ _ _ (by decide), by decide, by decide⟩
theorem witness_PortsBusyAndDoneGiveTheirRegisters :
    (HandshakeInv corner.regs ∧ ∃ t, step corner = .next t) ∧
    (HandshakeInv (State.powerUp (w 1) threeEdges).regs ∧
      ∃ t, step (State.powerUp (w 1) threeEdges) = .next t) :=
  ⟨⟨running_handshake _ _ _ _ _ _ (by decide), ⟨_, rfl⟩⟩,
    ⟨by constructor <;> simp [State.powerUp, Regs.powerUp], ⟨_, rfl⟩⟩⟩

end Sys2Proof.Tests
end

/-! PROOFS, family 00_scope: the reading of bit patterns, the Level S sequences, and what a step keeps of
the width, the latencies and the working registers. -/
namespace Sys2Proof.Machine

/-! ### How a pattern is read (00_scope R11 to R13) -/

@[simp] theorem val_unsigned {w : Nat} (v : BitVec w) : val .unsigned v = v.toNat := by
  simp [val, Mode.bit]

/-- Under the signed mode the logical value is the two's complement value. -/
@[simp] theorem val_signed {w : Nat} (v : BitVec w) : val .signed v = v.toInt := by
  simp [val, Mode.bit, BitVec.toInt_eq_msb_cond]

theorem neg_eq_bitVec_neg {w : Nat} (v : BitVec w) : neg v = -v := (BitVec.neg_eq_not_add v).symm

@[simp] theorem mag_unsigned {w : Nat} (v : BitVec w) : mag .unsigned v = v := by
  simp [mag, sgn, Mode.bit]

/-- Under the signed mode the magnitude is the library's absolute value, which wraps only as a signed number. -/
@[simp] theorem mag_signed {w : Nat} (v : BitVec w) : mag .signed v = v.abs := by
  simp [mag, sgn, Mode.bit, neg_eq_bitVec_neg, BitVec.abs_eq]

theorem toNat_fromInt (w : Nat) (v : Int) : ((fromInt w v).toNat : Int) = v % 2 ^ w := by
  have hnonneg : 0 ≤ v % 2 ^ w := Int.emod_nonneg v (by positivity)
  simp [fromInt, BitVec.toNat_ofInt, hnonneg]

/-- Loading the logical value of a pattern gives the pattern back. -/
theorem fromInt_val {w : Nat} (m : Mode) (v : BitVec w) : fromInt w (val m v) = v := by
  cases m with
  | unsigned => simp [fromInt]
  | signed => simp [fromInt]

/-- Zero extension to a greater width leaves the sign bit clear. -/
theorem toInt_zext_of_lt {w n : Nat} (v : BitVec w) (h : w < n) : (zext n v).toInt = v.toNat := by
  have hmsb : (zext n v).msb = false := by
    simp [zext, BitVec.msb_setWidth, BitVec.getLsbD_of_ge v (n - 1) (by omega)]
  rw [BitVec.toInt_eq_toNat_of_msb hmsb]
  simp [zext, Nat.mod_eq_of_lt (v.isLt.trans (Nat.pow_lt_pow_right (by decide) h))]

theorem toInt_ext_of_lt {w n : Nat} (m : Mode) (v : BitVec w) (h : w < n) :
    (ext n m v).toInt = val m v := by
  cases m with
  | unsigned => simpa [ext] using toInt_zext_of_lt v h
  | signed => simpa [ext, sext] using BitVec.toInt_signExtend_of_le (x := v) h.le

/-- The most negative value is no exception: its absolute value fits the width as an unsigned number. -/
theorem toNat_abs_eq_natAbs_toInt {w : Nat} (v : BitVec w) : v.abs.toNat = v.toInt.natAbs := by
  have hlt : v.toNat < 2 ^ w := v.isLt
  rw [BitVec.toNat_abs, BitVec.toInt_eq_msb_cond]
  split <;> omega

theorem toNat_mag {w : Nat} (m : Mode) (v : BitVec w) : (mag m v).toNat = (val m v).natAbs := by
  cases m with
  | unsigned => simp
  | signed => simpa using toNat_abs_eq_natAbs_toInt v

/-! ### Units whose loop index counts their steps (70_reset_and_hazards R199) -/

/-- The unit with registers `α`, placed among the working registers by `wrap`, takes the step `f` while its loop
index `idx` is below `bound`, keeps its registers from then on, and counts every step in `idx`. -/
structure CountedUnit {N : Nat} {α : Type} (wrap : α → Work N) (f : α → α) (idx : α → Nat)
    (bound : Nat) : Prop where
  advance_below : ∀ r, idx r < bound → (wrap r).advance = wrap (f r)
  advance_done : ∀ r, bound ≤ idx r → (wrap r).advance = wrap r
  idx_step : ∀ r, idx (f r) = idx r + 1

namespace CountedUnit

variable {N : Nat} {α : Type} {wrap : α → Work N} {f : α → α} {idx : α → Nat} {bound : Nat}

theorem idx_iterate (h : CountedUnit wrap f idx bound) (r : α) (j : Nat) :
    idx (iterate f j r) = idx r + j := by
  induction j with
  | zero => rfl
  | succ j ih => rw [iterate_succ, h.idx_step, ih, Nat.add_assoc]

/-- Up to the end of its loop, advancing the working registers is iterating the unit's own step. -/
theorem iterate_advance (h : CountedUnit wrap f idx bound) {r : α} (h0 : idx r = 0) {j : Nat}
    (hj : j ≤ bound) : iterate Work.advance j (wrap r) = wrap (iterate f j r) := by
  induction j with
  | zero => rfl
  | succ j ih =>
    have hbelow : idx (iterate f j r) < bound := by rw [h.idx_iterate, h0]; omega
    rw [iterate_succ, ih (by omega), h.advance_below _ hbelow, iterate_succ]

/-- Once the loop has run, the working registers stay. -/
theorem advance_iterate_bound (h : CountedUnit wrap f idx bound) {r : α} (h0 : idx r = 0) :
    (iterate Work.advance bound (wrap r)).advance = iterate Work.advance bound (wrap r) := by
  rw [h.iterate_advance h0 le_rfl]
  exact h.advance_done _ (by rw [h.idx_iterate, h0]; omega)

end CountedUnit

theorem adder_countedUnit (N : Nat) :
    CountedUnit (N := N) .adder AdderRegs.step AdderRegs.i N where
  advance_below _ h := if_pos h
  advance_done _ h := if_neg (Nat.not_lt.mpr h)
  idx_step _ := rfl

theorem seq_countedUnit (N : Nat) : CountedUnit (N := N) .seq SeqRegs.step SeqRegs.i N where
  advance_below _ h := if_pos h
  advance_done _ h := if_neg (Nat.not_lt.mpr h)
  idx_step _ := rfl

theorem booth2_countedUnit (N : Nat) :
    CountedUnit (N := N) .booth2 Booth2Regs.step Booth2Regs.i N where
  advance_below _ h := if_pos h
  advance_done _ h := if_neg (Nat.not_lt.mpr h)
  idx_step _ := rfl

theorem booth4_countedUnit (N : Nat) :
    CountedUnit (N := N) .booth4 Booth4Regs.step Booth4Regs.i (booth4Steps N) where
  advance_below _ h := if_pos h
  advance_done _ h := if_neg (Nat.not_lt.mpr h)
  idx_step _ := rfl

theorem rest_countedUnit (N : Nat) : CountedUnit (N := N) .rest RestRegs.step RestRegs.i N where
  advance_below _ h := if_pos h
  advance_done _ h := if_neg (Nat.not_lt.mpr h)
  idx_step r := by unfold RestRegs.step; dsimp only; split <;> rfl

theorem nrest_countedUnit (N : Nat) : CountedUnit (N := N) .nrest NrestRegs.step NrestRegs.i N where
  advance_below _ h := if_pos h
  advance_done _ h := if_neg (Nat.not_lt.mpr h)
  idx_step _ := rfl

/-! ### The naive multiplier, whose last step is the sum (41_multipliers R110) -/

theorem NaiveRegs.step_of_lt {N : Nat} {r : NaiveRegs N} (h : r.i < N) :
    r.step = { r with pp := r.pp ++ [partialProduct r.ma r.mb r.i], i := r.i + 1 } := if_pos h

theorem NaiveRegs.step_of_le {N : Nat} {r : NaiveRegs N} (h : N ≤ r.i) :
    r.step = { r with sum := some (r.pp.foldl (· + ·) 0) } := if_neg (Nat.not_lt.mpr h)

theorem iterate_advance_naive {N : Nat} (r : NaiveRegs N) (j : Nat) :
    iterate Work.advance j (.naive r) = .naive (iterate NaiveRegs.step j r) := by
  induction j with
  | zero => rfl
  | succ j ih => rw [iterate_succ, ih]; rfl

/-- After `j` of its first `N` steps `MUL.NAIVE` holds the first `j` partial products and no sum. -/
theorem iterate_naiveStep {N : Nat} (m : Mode) (a b : Word N) {j : Nat} (hj : j ≤ N) :
    iterate NaiveRegs.step j (NaiveRegs.start m a b)
      = { NaiveRegs.start m a b with
          pp := (List.range j).map (partialProduct (mag m a) (mag m b)), i := j } := by
  induction j with
  | zero => rfl
  | succ j ih =>
    have hlt : j < N := hj
    rw [iterate_succ, ih hlt.le, NaiveRegs.step_of_lt hlt, List.range_succ, List.map_append]
    rfl

/-- The finished registers of `MUL.NAIVE`: all `N` partial products and their sum. -/
theorem naiveRun_eq {N : Nat} (m : Mode) (a b : Word N) :
    naiveRun m a b
      = { NaiveRegs.start m a b with
          pp := (List.range N).map (partialProduct (mag m a) (mag m b)), i := N
          sum := some (((List.range N).map (partialProduct (mag m a) (mag m b))).foldl (· + ·) 0) } := by
  rw [naiveRun, iterate_succ, iterate_naiveStep m a b le_rfl]
  exact NaiveRegs.step_of_le le_rfl

/-- The sum, taken again, is the same. -/
theorem naiveRun_step {N : Nat} (m : Mode) (a b : Word N) :
    (naiveRun m a b).step = naiveRun m a b := by
  rw [naiveRun_eq]
  exact NaiveRegs.step_of_le le_rfl

theorem naiveRun_product {N : Nat} (m : Mode) (a b : Word N) :
    (naiveRun m a b).product = some (negIf (productSign m a b) (naiveSum m a b)) := by
  simp only [NaiveRegs.product, naiveSum, naiveRun_eq]
  rfl

/-! ### The Level S sequence of every operation (00_scope R8) -/

/-- A divide initialises no working registers exactly where the divisor is zero (42_dividers R141). -/
theorem startWork_eq_none_iff {N : Nat} (i : Instr) (a b : Word N) :
    startWork i a b = none ↔ opOutcome i a b = .divisionByZero := by
  cases i with
  | divRest m | divNrest m =>
    by_cases hb : b = 0#N <;>
      simp [startWork, opOutcome, divRestOutcome, divNrestOutcome, divOutcome, hb]
  | add m | sub m => simp [startWork, opOutcome, addOutcome, subOutcome, adderOutcome]
  | mulSeq m | mulNaive m | mulBooth2 m | mulBooth4 m =>
    simp [startWork, opOutcome, mulSeqOutcome, mulNaiveOutcome, mulBooth2Outcome, mulBooth4Outcome,
      mulOutcome]

theorem startWork_divRest {N : Nat} {m : Mode} {a b : Word N} {v : Work N}
    (h : startWork (.divRest m) a b = some v) : b ≠ 0#N ∧ v = .rest (RestRegs.start m a b) := by
  by_cases hb : b = 0#N
  · simp [startWork, hb] at h
  · exact ⟨hb, by simpa [startWork, hb] using h.symm⟩

theorem startWork_divNrest {N : Nat} {m : Mode} {a b : Word N} {v : Work N}
    (h : startWork (.divNrest m) a b = some v) : b ≠ 0#N ∧ v = .nrest (NrestRegs.start m a b) := by
  by_cases hb : b = 0#N
  · simp [startWork, hb] at h
  · exact ⟨hb, by simpa [startWork, hb] using h.symm⟩

theorem stepCount_pos {N : Nat} (hN : 0 < N) (i : Instr) : 0 < stepCount N i := by
  cases i <;> simp only [stepCount, booth4Steps] <;> omega

theorem levelS_of_start {N : Nat} {i : Instr} {a b : Word N} {v : Work N}
    (h : startWork i a b = some v) : levelS i a b = traceOf Work.advance (stepCount N i) v := by
  simp [levelS, h]

theorem levelS_of_none {N : Nat} {i : Instr} {a b : Word N} (h : startWork i a b = none) :
    levelS i a b = [] := by simp [levelS, h]

/-- The elements of a Level S sequence are the registers as initialised after one step or more. -/
theorem mem_levelS {N : Nat} {i : Instr} {a b : Word N} {w : Work N} :
    w ∈ levelS i a b ↔ ∃ v, startWork i a b = some v ∧
      ∃ j < stepCount N i, iterate Work.advance (j + 1) v = w := by
  cases h : startWork i a b with
  | none => simp [levelS_of_none h]
  | some v => simp [levelS_of_start h, mem_traceOf]

theorem levelS_getElem? {N : Nat} {i : Instr} {a b : Word N} {k : Nat} {w : Work N} :
    (levelS i a b)[k]? = some w ↔ ∃ v, startWork i a b = some v ∧ k < stepCount N i ∧
      iterate Work.advance (k + 1) v = w := by
  cases h : startWork i a b with
  | none => simp [levelS_of_none h]
  | some v => simp [levelS_of_start h, traceOf_eq_map, List.getElem?_eq_some_iff]

theorem levelS_getLast? {N : Nat} (hN : 0 < N) {i : Instr} {a b : Word N} {v : Work N}
    (h : startWork i a b = some v) :
    (levelS i a b).getLast? = some (iterate Work.advance (stepCount N i) v) := by
  obtain ⟨k, hk⟩ := Nat.exists_eq_add_one.mpr (stepCount_pos hN i)
  rw [levelS_of_start h, hk, getLast?_traceOf]

theorem levelS_eq_nil_iff {N : Nat} (hN : 0 < N) (i : Instr) (a b : Word N) :
    levelS i a b = [] ↔ startWork i a b = none := by
  refine ⟨fun hnil => ?_, levelS_of_none⟩
  cases h : startWork i a b with
  | none => rfl
  | some v => simpa [hnil] using levelS_getLast? hN h

/-- Once all steps of an operation are taken, the working registers stay as they are. -/
theorem advance_after_last_step {N : Nat} {i : Instr} {a b : Word N} {v : Work N}
    (h : startWork i a b = some v) :
    (iterate Work.advance (stepCount N i) v).advance = iterate Work.advance (stepCount N i) v := by
  cases i with
  | add m | sub m => cases h; exact (adder_countedUnit N).advance_iterate_bound rfl
  | mulSeq m => cases h; exact (seq_countedUnit N).advance_iterate_bound rfl
  | mulNaive m =>
    cases h
    rw [stepCount, iterate_advance_naive]
    exact congrArg Work.naive (naiveRun_step m a b)
  | mulBooth2 m => cases h; exact (booth2_countedUnit N).advance_iterate_bound rfl
  | mulBooth4 m => cases h; exact (booth4_countedUnit N).advance_iterate_bound rfl
  | divRest m =>
    obtain ⟨-, rfl⟩ := startWork_divRest h
    exact (rest_countedUnit N).advance_iterate_bound rfl
  | divNrest m =>
    obtain ⟨-, rfl⟩ := startWork_divNrest h
    exact (nrest_countedUnit N).advance_iterate_bound rfl

/-- The registers after the last step, read out, give the Level O outcome. -/
theorem outcome_after_last_step {N : Nat} {i : Instr} {a b : Word N} {v : Work N}
    (h : startWork i a b = some v) :
    (iterate Work.advance (stepCount N i) v).outcome i.mode a b = some (opOutcome i a b) := by
  cases i with
  | add m | sub m =>
    cases h; rw [stepCount, (adder_countedUnit N).iterate_advance rfl le_rfl]; rfl
  | mulSeq m => cases h; rw [stepCount, (seq_countedUnit N).iterate_advance rfl le_rfl]; rfl
  | mulNaive m =>
    cases h
    rw [stepCount, iterate_advance_naive]
    change (naiveRun m a b).product.map (mulOutcome m a b) = _
    rw [naiveRun_product]
    rfl
  | mulBooth2 m => cases h; rw [stepCount, (booth2_countedUnit N).iterate_advance rfl le_rfl]; rfl
  | mulBooth4 m => cases h; rw [stepCount, (booth4_countedUnit N).iterate_advance rfl le_rfl]; rfl
  | divRest m =>
    obtain ⟨hb, rfl⟩ := startWork_divRest h
    rw [stepCount, (rest_countedUnit N).iterate_advance rfl le_rfl]
    simp [Work.outcome, opOutcome, divRestOutcome, hb, restRun, Instr.mode]
  | divNrest m =>
    obtain ⟨hb, rfl⟩ := startWork_divNrest h
    rw [stepCount, (nrest_countedUnit N).iterate_advance rfl le_rfl]
    simp [Work.outcome, opOutcome, divNrestOutcome, hb, nrestRun, Instr.mode]

/-! ### Lengths and elements -/

theorem length_levelS_of_start {N : Nat} {i : Instr} {a b : Word N} {v : Work N}
    (h : startWork i a b = some v) : (levelS i a b).length = stepCount N i := by
  rw [levelS_of_start h, length_traceOf]

/-- A divide takes its `N` steps unless its divisor is zero (42_dividers R141). -/
theorem length_levelS_div {N : Nat} (m : Mode) (a b : Word N) :
    ∀ i ∈ [Instr.divRest m, .divNrest m], (levelS i a b).length = if b = 0#N then 0 else N := by
  intro i hi
  obtain rfl | rfl := List.mem_pair.mp hi <;> by_cases hb : b = 0#N <;>
    simp [levelS, startWork, stepCount, hb]

theorem levelS_first {N : Nat} {i : Instr} {a b : Word N} {v w : Work N}
    (hv : startWork i a b = some v) (hw : (levelS i a b)[0]? = some w) : w = v.advance := by
  obtain ⟨v', hv', -, rfl⟩ := levelS_getElem?.mp hw
  obtain rfl : v' = v := Option.some.inj (hv'.symm.trans hv)
  rfl

theorem levelS_successor {N : Nat} {i : Instr} {a b : Word N} {k : Nat} {v w : Work N}
    (hv : (levelS i a b)[k]? = some v) (hw : (levelS i a b)[k + 1]? = some w) : w = v.advance := by
  obtain ⟨u, hu, -, rfl⟩ := levelS_getElem?.mp hv
  obtain ⟨u', hu', -, rfl⟩ := levelS_getElem?.mp hw
  obtain rfl : u' = u := Option.some.inj (hu'.symm.trans hu)
  rfl

/-- The elements of the sequence of `MUL.NAIVE` add one partial product each, and the last one the sum. -/
theorem levelS_naive_getElem? {N : Nat} {m : Mode} {a b : Word N} {k : Nat} {v : Work N}
    (h : (levelS (.mulNaive m) a b)[k]? = some v) : ∃ r, v = .naive r ∧
      (k < N → r.pp = (naiveRun m a b).pp.take (k + 1) ∧ r.pp.length = k + 1 ∧ r.sum = none) ∧
      (k = N → r = naiveRun m a b) := by
  obtain ⟨u, hu, -, rfl⟩ := levelS_getElem?.mp h
  cases hu
  refine ⟨_, iterate_advance_naive _ _, fun hk => ?_, fun hk => by rw [hk]; rfl⟩
  rw [iterate_naiveStep m a b hk, naiveRun_eq]
  refine ⟨?_, by simp, rfl⟩
  simp [← List.map_take, List.take_range, Nat.min_eq_left hk]

/-! ### What a step keeps -/

/-- What the host observes of a core that has just finished is the outcome it finished with. -/
@[simp] theorem Regs.observe_finish {N : Nat} (r : Regs N) (o : OpOutcome N) :
    (r.finish o).observe = some o := by
  cases o <;> rfl

theorem exec_of_held (i : Instr) (s : State) {a b : Word s.width.bits} (ha : s.regs.opa = some a)
    (hb : s.regs.opb = some b) :
    exec i s = .next (s.withRegs (s.regs.finish (opOutcome i a b))) := by
  rw [exec_eq_complete, State.complete_of_held s _ ha hb]

/-- One more step stays on the sequence: it gives the next element, or nothing moves after the last. -/
theorem advance_mem_levelS {N : Nat} (hN : 0 < N) {i : Instr} {a b : Word N} {w : Work N}
    (h : startWork i a b = some w ∨ w ∈ levelS i a b) : w.advance ∈ levelS i a b := by
  obtain hstart | hmem := h
  · exact mem_levelS.mpr ⟨w, hstart, 0, stepCount_pos hN i, rfl⟩
  · obtain ⟨v, hv, j, hj, rfl⟩ := mem_levelS.mp hmem
    by_cases hlast : j + 1 = stepCount N i
    · rw [hlast, advance_after_last_step hv, ← hlast]
      exact hmem
    · exact mem_levelS.mpr ⟨v, hv, j + 1, by omega, rfl⟩

theorem startCommand_eq_some {N : Nat} {c : CmdWord} {a b : Word N} {w : Work N}
    (h : startCommand c a b = some w) : ∃ i, decode c = .ok i ∧ startWork i a b = some w := by
  unfold startCommand at h
  split at h
  · next i hi => exact ⟨i, hi, h⟩
  · cases h

/-- A running core holds a command and both operands. -/
theorem HandshakeInv.held_of_busy {N : Nat} {r : Regs N} (h : HandshakeInv r)
    (hbusy : r.busy = some true) : ∃ c a b, r.cmd = some c ∧ r.opa = some a ∧ r.opb = some b := by
  obtain ⟨c, hc⟩ := Option.isSome_iff_exists.mp (h.cmdHeld.mpr (.inl hbusy))
  obtain ⟨a, ha⟩ := Option.isSome_iff_exists.mp (h.opaHeld.mpr (.inl hbusy))
  obtain ⟨b, hb⟩ := Option.isSome_iff_exists.mp (h.opbHeld.mpr (.inl hbusy))
  exact ⟨c, a, b, hc, ha, hb⟩

theorem workInv_of_none {N : Nat} {r : Regs N} (h : r.work = none) : WorkInv r := by
  intro w hw
  rw [h] at hw
  cases hw

/-- A running edge before the completing one initialises the latched command's unit or moves it one step on. -/
theorem workInv_advance {N : Nat} (hN : 0 < N) {r : Regs N} (hi : HandshakeInv r) (hw : WorkInv r)
    (hbusy : r.busy = some true) : WorkInv r.advance := by
  intro w hadv
  cases hwork : r.work with
  | none =>
    obtain ⟨c, a, b, hc, ha, hob⟩ := hi.held_of_busy hbusy
    rw [Regs.advance_work_of_none hwork hc ha hob] at hadv
    obtain ⟨i, hd, hstart⟩ := startCommand_eq_some hadv
    exact ⟨c, a, b, i, hc, ha, hob, hd, .inl hstart⟩
  | some v =>
    rw [Regs.advance_work_of_held hwork] at hadv
    cases hadv
    obtain ⟨c, a, b, i, hc, ha, hob, hd, hon⟩ := hw v hwork
    exact ⟨c, a, b, i, hc, ha, hob, hd, .inr (advance_mem_levelS hN hon)⟩

theorem workInv_finish {N : Nat} (r : Regs N) (o : OpOutcome N) : WorkInv (r.finish o) := by
  obtain ⟨-, -, -, -, -, hwork, -, -⟩ := r.finish_frame o
  exact workInv_of_none hwork

theorem regStep_keeps_workInv {N : Nat} (hN : 0 < N) {l : Latency} {p : PortIn N} {r r' : Regs N}
    (h : RegStep l p r r') (hi : HandshakeInv r) (hw : WorkInv r) : WorkInv r' := by
  cases h with
  | reset => exact workInv_of_none rfl
  | stay => exact hw
  | accept => exact workInv_of_none rfl
  | advance _ _ hbusy _ => exact workInv_advance hN hi hw hbusy
  | run => exact workInv_finish _ _
  | illegal => exact workInv_finish _ _

/-! ### The statements -/

/-- Settles O2: the residue is `BitVec.ofInt`'s, and the logical value of a pattern loads back to it. -/
theorem loadingAnIntegerMasksIt : Obligations.LoadingAnIntegerMasksIt :=
  fun w m v _ => ⟨toNat_fromInt w v, fromInt_val m (fromInt w v)⟩

/-- Settles O3, by the mode: zero extension clears the sign bit, sign extension keeps the signed value. -/
theorem extensionKeepsTheLogicalValue : Obligations.ExtensionKeepsTheLogicalValue := by
  intro w n m v h
  rw [val_signed, toInt_ext_of_lt m v h]

/-- Settles O4, by the mode: the magnitude is the pattern itself or its absolute value. -/
theorem magnitudeIsTheAbsoluteValue : Obligations.MagnitudeIsTheAbsoluteValue :=
  fun _ m v _ => toNat_mag m v

/-- Settles O37: nothing is initialised exactly on a divide by zero, and the last element is the run's end. -/
theorem levelSYieldsLevelO : Obligations.LevelSYieldsLevelO := by
  intro N i a b hN
  refine ⟨(levelS_eq_nil_iff hN i a b).trans (startWork_eq_none_iff i a b), fun w hw => ?_⟩
  cases h : startWork i a b with
  | none => simp [levelS_of_none h] at hw
  | some v =>
    rw [levelS_getLast? hN h] at hw
    cases hw
    exact outcome_after_last_step h

/-- Settles O38: a Level S sequence is the trace of its steps from the registers as initialised. -/
theorem levelSHasTheStatedStepCounts : Obligations.LevelSHasTheStatedStepCounts := by
  intro N m a b
  refine ⟨fun i hi => ?_, length_levelS_div m a b, length_levelS_of_start rfl,
    length_levelS_of_start rfl, fun _ _ _ => levelS_first, fun _ _ _ _ => levelS_successor,
    fun _ _ => levelS_naive_getElem?⟩
  simp only [List.mem_cons, List.not_mem_nil, or_false] at hi
  obtain rfl | rfl | rfl | rfl := hi <;> exact length_levelS_of_start rfl

/-- Settles O49: every edge leaves the width and the latency table where they were. -/
theorem stepKeepsTheInstance : Obligations.StepKeepsTheInstance := by
  intro s t h
  obtain ⟨r, rfl, -⟩ := step_next h
  exact ⟨rfl, rfl⟩

/-- Settles O53, by cases on what an edge can do; only a running edge leaves other working registers held. -/
theorem stepKeepsWorkOnTheLevelSSequence : Obligations.StepKeepsWorkOnTheLevelSSequence := by
  intro s t hi hw h
  obtain ⟨r, rfl, hstep⟩ := step_next h
  exact regStep_keeps_workInv s.width.pos hstep hi hw

/-- Settles O57: both machines complete with the operation's Level O outcome on the held operands. -/
theorem outcomeDependsOnOperandsAlone : Obligations.OutcomeDependsOnOperandsAlone := by
  intro i s a b l ins r hsa hsb hra hrb
  exact ⟨s.regs.finish (opOutcome i a b), r.finish (opOutcome i a b), exec_of_held i s hsa hsb,
    exec_of_held i { width := s.width, latency := l, inputs := ins, regs := r } hra hrb,
    by rw [Regs.observe_finish, Regs.observe_finish], Regs.observe_finish _ _⟩

end Sys2Proof.Machine

/-! PROOFS, family 10_state: the registers after a completion, the output ports, the edges of a command from
its acceptance to its completion, and the invariants that every step keeps. -/
namespace Sys2Proof.Machine

/-! ### FLAGS and STATUS (10_state R26, R28) -/

@[simp] theorem flagC_packFlags (c v ng z : Bool) : flagC (packFlags c v ng z) = c := by
  simp only [flagC, packFlags, BitVec.getLsbD_append]
  simp

@[simp] theorem flagV_packFlags (c v ng z : Bool) : flagV (packFlags c v ng z) = v := by
  simp only [flagV, packFlags, BitVec.getLsbD_append]
  simp

@[simp] theorem flagNG_packFlags (c v ng z : Bool) : flagNG (packFlags c v ng z) = ng := by
  simp only [flagNG, packFlags, BitVec.getLsbD_append]
  simp

@[simp] theorem flagZ_packFlags (c v ng z : Bool) : flagZ (packFlags c v ng z) = z := by
  simp only [flagZ, packFlags, BitVec.getLsbD_append]
  simp

theorem toNat_packFlags (c v ng z : Bool) :
    (packFlags c v ng z).toNat = c.toNat + 2 * v.toNat + 4 * ng.toNat + 8 * z.toNat := by
  revert c v ng z
  decide

theorem Status.code_ne_three (c : Status) : c.code ≠ 3#2 := by cases c <;> decide

/-! ### The halves of RES (10_state R24) -/

@[simp] theorem hiHalf_append {N : Nat} (hi lo : Word N) : hiHalf (hi ++ lo) = hi := by
  simp [hiHalf, BitVec.extractLsb'_append_eq_left]

@[simp] theorem loHalf_append {N : Nat} (hi lo : Word N) : loHalf (hi ++ lo) = lo := by
  simp [loHalf, BitVec.extractLsb'_append_eq_right]

/-- `RES` is its upper half above its lower half. -/
theorem hiHalf_append_loHalf {N : Nat} (v : DWord N) : hiHalf v ++ loHalf v = v := by
  rw [hiHalf, loHalf, BitVec.extractLsb'_append_extractLsb'_eq_extractLsb' (by omega)]
  simp

/-! ### The registers of a finished core (10_state R32) -/

section Finish
variable {N : Nat} (r : Regs N) (o : OpOutcome N)

@[simp] theorem Regs.finish_busy : (r.finish o).busy = some false := by cases o <;> rfl
@[simp] theorem Regs.finish_done : (r.finish o).done = some true := by cases o <;> rfl
@[simp] theorem Regs.finish_opa : (r.finish o).opa = r.opa := by cases o <;> rfl
@[simp] theorem Regs.finish_opb : (r.finish o).opb = r.opb := by cases o <;> rfl
@[simp] theorem Regs.finish_cmd : (r.finish o).cmd = r.cmd := by cases o <;> rfl
@[simp] theorem Regs.finish_work : (r.finish o).work = none := by cases o <;> rfl
@[simp] theorem Regs.finish_edgesLeft : (r.finish o).edgesLeft = 0 := by cases o <;> rfl
@[simp] theorem Regs.finish_status : (r.finish o).status = some o.status := by cases o <;> rfl

/-- `RES` is held exactly when the outcome is `Ok`. -/
@[simp] theorem Regs.isSome_finish_res : (r.finish o).res.isSome ↔ o.status = .ok := by
  cases o <;> simp [Regs.finish, OpOutcome.status]

/-- `FLAGS` are held exactly when the outcome is `Ok`. -/
@[simp] theorem Regs.isSome_finish_flags : (r.finish o).flags.isSome ↔ o.status = .ok := by
  cases o <;> simp [Regs.finish, OpOutcome.status]

/-- Completion overwrites all that a running edge moves. -/
@[simp] theorem Regs.finish_advance : r.advance.finish o = r.finish o := by cases o <;> rfl

@[simp] theorem Regs.runState_finish : (r.finish o).runState = some .finished := by
  simp [Regs.runState]

end Finish

/-! ### Level O of a command word -/

theorem outcome_of_decode {N : Nat} {c : CmdWord} {i : Instr} (h : decode c = .ok i)
    (a b : Word N) : outcome c a b = opOutcome i a b := by
  simp only [outcome, h]

theorem outcome_of_reserved {N : Nat} {c : CmdWord} {e : DecodeError} (h : decode c = .error e)
    (a b : Word N) : outcome c a b = .illegalCommand := by
  simp only [outcome, h]

/-! ### Completion on operands that hold no value (10_state R44) -/

theorem State.complete_of_opa_unheld (s : State)
    (f : Word s.width.bits → Word s.width.bits → OpOutcome s.width.bits) (ha : s.regs.opa = none) :
    s.complete f = .fault (.holdsNoValue .opa) := by
  simp only [State.complete, ha]

theorem State.complete_of_opb_unheld (s : State)
    (f : Word s.width.bits → Word s.width.bits → OpOutcome s.width.bits) {a : Word s.width.bits}
    (ha : s.regs.opa = some a) (hb : s.regs.opb = none) :
    s.complete f = .fault (.holdsNoValue .opb) := by
  simp only [State.complete, ha, hb]

/-! ### A core that executes a command -/

/-- The core runs the command `c` on the operands `a`, `b`: what acceptance latches and every running edge keeps
(10_state R31, R32). -/
structure Regs.Executes {N : Nat} (r : Regs N) (c : CmdWord) (a b : Word N) : Prop where
  busy : r.busy = some true
  cmd : r.cmd = some c
  opa : r.opa = some a
  opb : r.opb = some b

theorem Regs.accepted_executes {N : Nat} (l : Latency) (c : CmdWord) (a b : Word N) :
    (Regs.accepted l c a b).Executes c a b := ⟨rfl, rfl, rfl, rfl⟩

theorem Regs.Executes.advance {N : Nat} {r : Regs N} {c : CmdWord} {a b : Word N}
    (h : r.Executes c a b) : r.advance.Executes c a b := ⟨h.busy, h.cmd, h.opa, h.opb⟩

theorem HandshakeInv.executes {N : Nat} {r : Regs N} (h : HandshakeInv r)
    (hbusy : r.busy = some true) : ∃ c a b, r.Executes c a b := by
  obtain ⟨c, a, b, hc, ha, hob⟩ := h.held_of_busy hbusy
  exact ⟨c, a, b, hbusy, hc, ha, hob⟩

/-- A completing edge records the Level O outcome of the command, reserved words included. -/
theorem RegStep.complete {N : Nat} {l : Latency} {p : PortIn N} {r : Regs N} {c : CmdWord}
    {a b : Word N} (hr : p.rst = false) (hs : p.start = false) (h : r.Executes c a b)
    (hl : r.edgesLeft ≤ 1) : RegStep l p r (r.finish (outcome c a b)) := by
  cases hd : decode c with
  | ok i =>
    rw [outcome_of_decode hd]
    exact .run hr hs h.busy hl c i a b h.cmd hd h.opa h.opb
  | error e =>
    rw [outcome_of_reserved hd]
    exact .illegal hr hs h.busy hl c e h.cmd hd

/-- What an edge can do in a legal run-state: as `RegStep`, with the two ways to complete made one. -/
theorem RegStep.cases_of_handshakeInv {N : Nat} {l : Latency} {p : PortIn N} {r r' : Regs N}
    (h : RegStep l p r r') (hi : HandshakeInv r) :
    r' = Regs.reset N ∨ r' = r ∨ r' = Regs.accepted l p.cmd p.aIn p.bIn ∨
      ∃ c a b, r.Executes c a b ∧
        ((1 < r.edgesLeft ∧ r' = r.advance) ∨ r' = r.finish (outcome c a b)) := by
  cases h with
  | reset => exact .inl rfl
  | stay => exact .inr (.inl rfl)
  | accept => exact .inr (.inr (.inl rfl))
  | advance _ _ hbusy hl =>
    obtain ⟨c, a, b, hx⟩ := hi.executes hbusy
    exact .inr (.inr (.inr ⟨c, a, b, hx, .inl ⟨hl, rfl⟩⟩))
  | run _ _ hbusy _ c i a b hc hd ha hob =>
    exact .inr (.inr (.inr ⟨c, a, b, ⟨hbusy, hc, ha, hob⟩,
      .inr (by rw [outcome_of_decode hd])⟩))
  | illegal _ _ hbusy _ c e hc hd =>
    obtain ⟨c', a, b, hx⟩ := hi.executes hbusy
    obtain rfl : c' = c := by simpa [hx.cmd] using hc
    exact .inr (.inr (.inr ⟨c', a, b, hx, .inr (by rw [outcome_of_reserved hd])⟩))

/-! ### The handshake invariant -/

theorem handshakeInv_reset (N : Nat) : HandshakeInv (Regs.reset N) := by constructor <;> simp

theorem handshakeInv_powerUp (N : Nat) : HandshakeInv (Regs.powerUp N) := by constructor <;> simp

theorem handshakeInv_accepted {N : Nat} (l : Latency) (c : CmdWord) (a b : Word N) :
    HandshakeInv (Regs.accepted l c a b) := by
  constructor <;> simp [latencyEdges_pos]

theorem HandshakeInv.advance {N : Nat} {r : Regs N} (h : HandshakeInv r)
    (hbusy : r.busy = some true) (hl : 1 < r.edgesLeft) : HandshakeInv r.advance :=
  { h with
    workOnlyRunning := fun _ => hbusy
    edgesWhileRunning := iff_of_true (Nat.sub_pos_of_lt hl) hbusy }

theorem handshakeInv_finish {N : Nat} {r : Regs N} {c : CmdWord} {a b : Word N}
    (h : r.Executes c a b) (o : OpOutcome N) : HandshakeInv (r.finish o) := by
  constructor <;> simp [h.cmd, h.opa, h.opb]

theorem regStep_keeps_handshakeInv {N : Nat} {l : Latency} {p : PortIn N} {r r' : Regs N}
    (h : RegStep l p r r') (hi : HandshakeInv r) : HandshakeInv r' := by
  obtain rfl | rfl | rfl | ⟨c, a, b, hx, ⟨hl, rfl⟩ | rfl⟩ := h.cases_of_handshakeInv hi
  · exact handshakeInv_reset N
  · exact hi
  · exact handshakeInv_accepted _ _ _ _
  · exact hi.advance hx.busy hl
  · exact handshakeInv_finish hx _

/-! ### The result invariant -/

theorem resultInv_of_not_done {N : Nat} {r : Regs N} (h : r.done ≠ some true) : ResultInv r :=
  fun hdone => absurd hdone h

theorem resultInv_finish {N : Nat} {r : Regs N} {c : CmdWord} {a b : Word N}
    (h : r.Executes c a b) : ResultInv (r.finish (outcome c a b)) :=
  fun _ => ⟨c, a, b, by simp [h.cmd], by simp [h.opa], by simp [h.opb], Regs.observe_finish _ _⟩

theorem regStep_keeps_resultInv {N : Nat} {l : Latency} {p : PortIn N} {r r' : Regs N}
    (h : RegStep l p r r') (hi : HandshakeInv r) (hres : ResultInv r) : ResultInv r' := by
  obtain rfl | rfl | rfl | ⟨c, a, b, hx, ⟨-, rfl⟩ | rfl⟩ := h.cases_of_handshakeInv hi
  · exact resultInv_of_not_done (by simp)
  · exact hres
  · exact resultInv_of_not_done (by simp)
  · exact resultInv_of_not_done fun hdone => hi.notBusyAndDone ⟨hx.busy, hdone⟩
  · exact resultInv_finish hx

/-! ### The latency invariant -/

theorem latencyInv_of_not_busy {s : State} (h : s.regs.busy ≠ some true) : LatencyInv s :=
  fun hbusy => absurd hbusy h

theorem regStep_keeps_latencyInv {s : State} {r : Regs s.width.bits}
    (h : RegStep s.latency s.sample s.regs r) (hi : LatencyInv s) : LatencyInv (s.after r) := by
  cases h with
  | reset => exact latencyInv_of_not_busy (by simp [State.after])
  | stay => exact hi
  | accept => exact fun _ => ⟨_, _, _, rfl, rfl, rfl, le_rfl⟩
  | advance _ _ hbusy _ =>
    obtain ⟨c, a, b, hc, ha, hob, hle⟩ := hi hbusy
    exact fun _ => ⟨c, a, b, hc, ha, hob, (Nat.sub_le _ 1).trans hle⟩
  | run => exact latencyInv_of_not_busy (by simp [State.after])
  | illegal => exact latencyInv_of_not_busy (by simp [State.after])

/-! ### The ports `busy` and `done` (10_state R30) -/

theorem Regs.readBusy_eq_ok_iff {N : Nat} (r : Regs N) (v : Bool) :
    r.readBusy = .ok v ↔ r.busy = some v := by
  cases h : r.busy <;> simp [Regs.readBusy, h]

theorem Regs.readDone_eq_ok_iff {N : Nat} (r : Regs N) (v : Bool) :
    r.readDone = .ok v ↔ r.done = some v := by
  cases h : r.done <;> simp [Regs.readDone, h]

theorem Regs.readBusy_eq_error_iff {N : Nat} (r : Regs N) :
    r.readBusy = .error (.readOfNoValue .busy) ↔ r.busy = none := by
  cases h : r.busy <;> simp [Regs.readBusy, h]

theorem Regs.readDone_eq_error_iff {N : Nat} (r : Regs N) :
    r.readDone = .error (.readOfNoValue .done) ↔ r.done = none := by
  cases h : r.done <;> simp [Regs.readDone, h]

/-- `BUSY` holds no value after an edge only before the first reset. -/
theorem regStep_busy_eq_none_iff {N : Nat} {l : Latency} {p : PortIn N} {r r' : Regs N}
    (h : RegStep l p r r') : r'.busy = none ↔ r.busy = none ∧ p.rst = false := by
  cases h with
  | reset hr => simp [hr]
  | stay hr => simp [hr]
  | accept _ _ hbusy => simp [hbusy]
  | advance _ _ hbusy => simp [hbusy]
  | run _ _ hbusy => simp [hbusy]
  | illegal _ _ hbusy => simp [hbusy]

/-- `DONE` holds no value after an edge only before the first reset. -/
theorem regStep_done_eq_none_iff {N : Nat} {l : Latency} {p : PortIn N} {r r' : Regs N}
    (h : RegStep l p r r') (hi : HandshakeInv r) :
    r'.done = none ↔ r.done = none ∧ p.rst = false := by
  rw [← (regStep_keeps_handshakeInv h hi).powerUpTogether, ← hi.powerUpTogether]
  exact regStep_busy_eq_none_iff h

/-! ### The result ports (10_state R45, 70_reset_and_hazards R196) -/

section Ports
variable {N : Nat} (r : Regs N)

theorem Regs.readStatus_eq_ok_iff (v : BitVec 2) :
    r.readStatus = .ok v ↔ r.done = some true ∧ ∃ c, r.status = some c ∧ v = c.code := by
  unfold Regs.readStatus
  split
  · next c hd hc => simp [hd, hc, eq_comm]
  · next hno =>
    refine iff_of_false (by simp) ?_
    rintro ⟨hd, c, hc, -⟩
    exact hno c hd hc

theorem Regs.readStatus_of_not_done (h : r.done ≠ some true) :
    r.readStatus = .error (.readOfNoValue .status) := by
  unfold Regs.readStatus
  split
  · next hd _ => exact absurd hd h
  · rfl

theorem Regs.readRes_eq_ok_iff (hi lo : Word N) :
    r.readRes = .ok (hi, lo) ↔
      r.done = some true ∧ r.status = some .ok ∧ r.res = some (hi ++ lo) := by
  unfold Regs.readRes
  split
  · next v hd hs hv =>
    suffices hiHalf v = hi ∧ loHalf v = lo ↔ v = hi ++ lo by simpa [hd, hs, hv] using this
    constructor
    · rintro ⟨rfl, rfl⟩
      exact (hiHalf_append_loHalf v).symm
    · rintro rfl
      exact ⟨hiHalf_append hi lo, loHalf_append hi lo⟩
  · next hno =>
    refine iff_of_false (by simp) ?_
    rintro ⟨hd, hs, hv⟩
    exact hno _ hd hs hv

theorem Regs.readRes_of_not_ok (h : ¬ (r.done = some true ∧ r.status = some .ok)) :
    r.readRes = .error (.readOfNoValue .res) := by
  unfold Regs.readRes
  split
  · next hd hs _ => exact absurd ⟨hd, hs⟩ h
  · rfl

theorem Regs.readFlags_eq_ok_iff (f : BitVec 4) :
    r.readFlags = .ok f ↔ r.done = some true ∧ r.status = some .ok ∧ r.flags = some f := by
  unfold Regs.readFlags
  split
  · next g hd hs hg => simp [hd, hs, hg]
  · next hno =>
    refine iff_of_false (by simp) ?_
    rintro ⟨hd, hs, hf⟩
    exact hno f hd hs hf

theorem Regs.readFlags_of_not_ok (h : ¬ (r.done = some true ∧ r.status = some .ok)) :
    r.readFlags = .error (.readOfNoValue .flags) := by
  unfold Regs.readFlags
  split
  · next hd hs _ => exact absurd ⟨hd, hs⟩ h
  · rfl

/-- Nothing is observed of a core that has not finished. -/
theorem Regs.observe_of_not_done (h : r.done ≠ some true) : r.observe = none := by
  unfold Regs.observe
  split
  · next hd _ _ _ => exact absurd hd h
  · next hd _ => exact absurd hd h
  · next hd _ => exact absurd hd h
  · rfl

theorem Regs.observe_eq_ok_iff (v : DWord N) (f : BitVec 4) :
    r.observe = some (.ok v f) ↔
      r.done = some true ∧ r.status = some .ok ∧ r.res = some v ∧ r.flags = some f := by
  constructor
  · unfold Regs.observe
    split
    · next hd hs hv hf => simp [hd, hs, hv, hf]
    · simp
    · simp
    · simp
  · rintro ⟨hd, hs, hv, hf⟩
    simp [Regs.observe, hd, hs, hv, hf]

theorem Regs.observe_eq_divisionByZero_iff :
    r.observe = some .divisionByZero ↔ r.done = some true ∧ r.status = some .divisionByZero := by
  constructor
  · unfold Regs.observe
    split
    · simp
    · next hd hs => simp [hd, hs]
    · simp
    · simp
  · rintro ⟨hd, hs⟩
    simp [Regs.observe, hd, hs]

theorem Regs.observe_eq_illegalCommand_iff :
    r.observe = some .illegalCommand ↔ r.done = some true ∧ r.status = some .illegalCommand := by
  constructor
  · unfold Regs.observe
    split
    · simp
    · simp
    · next hd hs => simp [hd, hs]
    · simp
  · rintro ⟨hd, hs⟩
    simp [Regs.observe, hd, hs]

end Ports

section LegalPorts
variable {N : Nat} {r : Regs N}

/-- In a legal run-state a status can be read exactly while finished. -/
theorem HandshakeInv.readStatus_ok_iff (h : HandshakeInv r) :
    (∃ v, r.readStatus = .ok v) ↔ r.done = some true := by
  refine ⟨fun ⟨v, hv⟩ => ((r.readStatus_eq_ok_iff v).mp hv).1, fun hd => ?_⟩
  obtain ⟨c, hc⟩ := Option.isSome_iff_exists.mp (h.statusHeld.mpr hd)
  exact ⟨c.code, (r.readStatus_eq_ok_iff _).mpr ⟨hd, c, hc, rfl⟩⟩

/-- In a legal run-state a result can be read exactly while finished with `Ok`. -/
theorem HandshakeInv.readRes_ok_iff (h : HandshakeInv r) :
    (∃ v, r.readRes = .ok v) ↔ r.done = some true ∧ r.status = some .ok := by
  constructor
  · rintro ⟨⟨hi, lo⟩, hv⟩
    obtain ⟨hd, hs, -⟩ := (r.readRes_eq_ok_iff hi lo).mp hv
    exact ⟨hd, hs⟩
  · rintro ⟨hd, hs⟩
    obtain ⟨v, hv⟩ := Option.isSome_iff_exists.mp (h.resHeld.mpr hs)
    exact ⟨(hiHalf v, loHalf v),
      (r.readRes_eq_ok_iff _ _).mpr ⟨hd, hs, by rw [hiHalf_append_loHalf, hv]⟩⟩

/-- In a legal run-state the flags can be read exactly while finished with `Ok`. -/
theorem HandshakeInv.readFlags_ok_iff (h : HandshakeInv r) :
    (∃ f, r.readFlags = .ok f) ↔ r.done = some true ∧ r.status = some .ok := by
  constructor
  · rintro ⟨f, hf⟩
    obtain ⟨hd, hs, -⟩ := (r.readFlags_eq_ok_iff f).mp hf
    exact ⟨hd, hs⟩
  · rintro ⟨hd, hs⟩
    obtain ⟨f, hf⟩ := Option.isSome_iff_exists.mp (h.flagsHeld.mpr hs)
    exact ⟨f, (r.readFlags_eq_ok_iff f).mpr ⟨hd, hs, hf⟩⟩

/-- In a legal run-state an outcome is observed exactly while finished. -/
theorem HandshakeInv.isSome_observe_iff (h : HandshakeInv r) :
    r.observe.isSome ↔ r.done = some true := by
  constructor
  · intro hobs
    by_contra hd
    simp [r.observe_of_not_done hd] at hobs
  · intro hd
    obtain ⟨c, hc⟩ := Option.isSome_iff_exists.mp (h.statusHeld.mpr hd)
    cases c with
    | ok =>
      obtain ⟨v, hv⟩ := Option.isSome_iff_exists.mp (h.resHeld.mpr hc)
      obtain ⟨f, hf⟩ := Option.isSome_iff_exists.mp (h.flagsHeld.mpr hc)
      rw [(r.observe_eq_ok_iff v f).mpr ⟨hd, hc, hv, hf⟩]
      rfl
    | divisionByZero => rw [r.observe_eq_divisionByZero_iff.mpr ⟨hd, hc⟩]; rfl
    | illegalCommand => rw [r.observe_eq_illegalCommand_iff.mpr ⟨hd, hc⟩]; rfl

end LegalPorts

/-! ### The completing edge (10_state R32) -/

theorem step_completing {s : State} (hr : s.sample.rst = false) (hs : s.sample.start = false)
    (hbusy : s.regs.busy = some true) (hl : s.regs.edgesLeft ≤ 1) :
    step s = s.pastSample.completeCommand := by
  simp [step, State.edge, hr, hs, hbusy, hl]

theorem State.completeCommand_of_decode {s : State} {c : CmdWord} {i : Instr}
    (hc : s.regs.cmd = some c) (hd : decode c = .ok i) : s.completeCommand = exec i s := by
  simp only [State.completeCommand, hc, hd]

/-- At the completing edge the operation in `CMD` runs. -/
theorem step_eq_exec {s : State} {c : CmdWord} {i : Instr} (hr : s.sample.rst = false)
    (hs : s.sample.start = false) (hbusy : s.regs.busy = some true) (hl : s.regs.edgesLeft ≤ 1)
    (hc : s.regs.cmd = some c) (hd : decode c = .ok i) : step s = exec i s.pastSample :=
  (step_completing hr hs hbusy hl).trans (State.completeCommand_of_decode hc hd)

/-- A number that decodes to an operation is a five-bit word that does. -/
theorem decode_of_decodeTableWord {nbits w : Nat} {i : Instr} (h : decodeTableWord nbits w = some i) :
    decode (BitVec.ofNat 5 (w % 2 ^ nbits)) = .ok i := by
  unfold decodeTableWord decodeNat at h
  split at h
  · next j hj =>
    cases h
    split at hj
    · exact hj
    · cases hj
  · cases h

/-- Only the low five bits of a byte are latched as the command. -/
theorem ofNat_five_mod_byte (w : Nat) : BitVec.ofNat 5 (w % 2 ^ 8) = BitVec.ofNat 5 w := by
  apply BitVec.eq_of_toNat_eq
  simp only [BitVec.toNat_ofNat]
  omega

/-! ### A run from acceptance to completion (10_state R31, R32, 70_reset_and_hazards R201) -/

/-- A run takes its first step, then the others. -/
theorem core_run_succ {s t : State} (h : step s = .next t) (k : Nat) :
    core.run (k + 1) s = core.run k t := by
  have hcore : core.step s = .next t := h
  simp only [Host.Core.run, hcore]

/-- A request to an idle or finished core is accepted. -/
theorem step_of_request {s : State} {c : CmdWord} {a b : Word s.width.bits}
    {ins : List (PortIn s.width.bits)} (hbusy : s.regs.busy = some false)
    (h : s.inputs = PortIn.request c a b :: ins) :
    step s = .next { s with inputs := ins, regs := Regs.accepted s.latency c a b } := by
  have hsample : s.sample = PortIn.request c a b := by simp [State.sample, h]
  rw [step_of_regStep s (.accept (by simp [hsample]) (by simp [hsample]) hbusy)]
  simp [State.after, hsample, h, PortIn.request]

/-- A core that executes a command completes it after as many quiet edges as are left, with its outcome. -/
theorem run_to_completion {n : Width} {l : Latency} {c : CmdWord} {a b : Word n.bits}
    (rest quiet : List (PortIn n.bits)) (hquiet : ∀ p ∈ quiet, p.rst = false ∧ p.start = false)
    (r : Regs n.bits) (hx : r.Executes c a b) (hleft : r.edgesLeft = quiet.length)
    (hpos : 0 < quiet.length) :
    core.run quiet.length { width := n, latency := l, inputs := quiet ++ rest, regs := r } =
      .next { width := n, latency := l, inputs := rest, regs := r.finish (outcome c a b) } := by
  induction quiet generalizing r with
  | nil => cases hpos
  | cons p qs ih =>
    obtain ⟨⟨hr, hs⟩, hqs⟩ := List.forall_mem_cons.mp hquiet
    rw [List.length_cons] at hleft
    cases qs with
    | nil =>
      have hstep := RegStep.complete (l := l) hr hs hx hleft.le
      exact core_run_succ (step_of_regStep (.mk n l (p :: rest) r) hstep) 0
    | cons q qs' =>
      rw [List.length_cons] at hleft
      have hstep := RegStep.advance (l := l) hr hs hx.busy (by omega)
      have hnext := ih hqs r.advance hx.advance (by simp [hleft]) (by simp)
      rw [Regs.finish_advance] at hnext
      exact (core_run_succ (step_of_regStep (.mk n l (p :: q :: qs' ++ rest) r) hstep) _).trans hnext

/-! ### The statements -/

/-- Settles O51, by cases on what an edge can do in a legal run-state. -/
theorem stepKeepsTheHandshakeInvariant : Obligations.StepKeepsTheHandshakeInvariant := by
  intro s t hi h
  obtain ⟨r, rfl, hstep⟩ := step_next h
  exact regStep_keeps_handshakeInv hstep hi

/-- Settles O52: an edge that ends in FINISHED either keeps the registers or records the command's outcome. -/
theorem stepKeepsTheResultInvariant : Obligations.StepKeepsTheResultInvariant := by
  intro s t hi hres h
  obtain ⟨r, rfl, hstep⟩ := step_next h
  exact regStep_keeps_resultInv hstep hi hres

/-- Settles O54: acceptance sets the count to the latency, and every other edge lowers or keeps it. -/
theorem stepKeepsTheLatencyBound : Obligations.StepKeepsTheLatencyBound := by
  intro s t hi h
  obtain ⟨r, rfl, hstep⟩ := step_next h
  exact regStep_keeps_latencyInv hstep hi

/-- Settles O56: one edge accepts, and the quiet edges run the command to completion. -/
theorem acceptedCommandCompletesWithItsOutcome :
    Obligations.AcceptedCommandCompletesWithItsOutcome := by
  intro s c a b quiet rest hbusy hinputs hlen hquiet
  refine ⟨(Regs.accepted s.latency c a b).finish (outcome c a b), ?_, by simp, by simp, by simp,
    by simp, by simp, by simp⟩
  rw [Nat.add_comm, core_run_succ (step_of_request hbusy hinputs)]
  exact run_to_completion rest quiet hquiet _ (Regs.accepted_executes s.latency c a b) hlen.symm
    (hlen ▸ latencyEdges_pos s.latency c a b)

/-- Settles O58, port by port. -/
theorem hostReadsOnlyFinishedResults : Obligations.HostReadsOnlyFinishedResults :=
  fun _ r h => ⟨h.readStatus_ok_iff, r.readStatus_eq_ok_iff, r.readStatus_of_not_done,
    h.readRes_ok_iff, r.readRes_eq_ok_iff,
    fun hno => ⟨r.readRes_of_not_ok hno, r.readFlags_of_not_ok hno⟩,
    h.readFlags_ok_iff, r.readFlags_eq_ok_iff, h.isSome_observe_iff, r.observe_eq_ok_iff,
    r.observe_eq_divisionByZero_iff, r.observe_eq_illegalCommand_iff⟩

/-- Settles O60: a port is refused exactly while its register holds no value, which only a reset edge ends. -/
theorem portsBusyAndDoneGiveTheirRegisters : Obligations.PortsBusyAndDoneGiveTheirRegisters := by
  refine ⟨fun N r => ⟨r.readBusy_eq_ok_iff, r.readDone_eq_ok_iff, r.readBusy_eq_error_iff,
    r.readDone_eq_error_iff⟩, fun s t hi h => ?_, fun _ _ => ⟨rfl, rfl, rfl, rfl⟩⟩
  obtain ⟨r, rfl, hstep⟩ := step_next h
  simp only [Regs.readBusy_eq_error_iff, Regs.readDone_eq_error_iff]
  exact ⟨regStep_busy_eq_none_iff hstep, regStep_done_eq_none_iff hstep hi⟩

/-- Settles O5: the word's value and the four readers. -/
theorem flagsStandAtTheirPositions : Obligations.FlagsStandAtTheirPositions :=
  fun c v ng z => ⟨toNat_packFlags c v ng z, flagC_packFlags c v ng z, flagV_packFlags c v ng z,
    flagNG_packFlags c v ng z, flagZ_packFlags c v ng z⟩

/-- Settles O6: the three codes by definition, and none of them is 3. -/
theorem statusCodesAreZeroOneTwo : Obligations.StatusCodesAreZeroOneTwo :=
  ⟨rfl, rfl, rfl, Status.code_ne_three⟩

/-- Settles O39, field by field. -/
theorem resetLeavesOnlyTheRunState : Obligations.ResetLeavesOnlyTheRunState :=
  fun _ _ => ⟨rfl, rfl, rfl, rfl, rfl, rfl, rfl, rfl, rfl⟩

/-- Settles O41: the edge accepts, and a latency is positive. -/
theorem acceptanceLatchesTheCommand : Obligations.AcceptanceLatchesTheCommand :=
  fun s hr hs hbusy => ⟨_, step_of_regStep s (.accept hr hs hbusy), rfl, rfl, rfl, rfl, rfl, rfl, rfl,
    rfl, rfl, rfl, rfl, latencyEdges_pos _ _ _ _⟩

/-- Settles O44: such an edge can only stay. -/
theorem edgeWithoutRequestKeepsTheRegisters : Obligations.EdgeWithoutRequestKeepsTheRegisters :=
  fun s hr hs hbusy => step_of_regStep s (.stay hr hs hbusy)

/-- Settles O46, whether or not the operands are held. -/
theorem stepRunsTheDecodedCommand : Obligations.StepRunsTheDecodedCommand :=
  fun _ _ _ hr hs hbusy hl hc hd => step_eq_exec hr hs hbusy hl hc hd

/-- Settles O48: the state that `withFetchWord` makes is at its completing edge. -/
theorem fetchedWordRunsNext : Obligations.FetchedWordRunsNext :=
  fun s w _ hw => ⟨(s.withFetchWord 8 w).pastSample,
    step_eq_exec rfl rfl rfl le_rfl rfl (decode_of_decodeTableWord hw), rfl,
    congrArg some (ofNat_five_mod_byte w), rfl, rfl⟩

/-- Settles O50: a core that neither runs nor has finished meets the other invariants for want of a case. -/
theorem resetMeetsEveryInvariant : Obligations.ResetMeetsEveryInvariant := by
  have hreset (n : Width) (l : Latency) : HandshakeInv (State.resetOf n l).regs ∧
      ResultInv (State.resetOf n l).regs ∧ WorkInv (State.resetOf n l).regs ∧
      LatencyInv (State.resetOf n l) :=
    ⟨handshakeInv_reset n.bits, resultInv_of_not_done (by simp), workInv_of_none rfl,
      latencyInv_of_not_busy (by simp)⟩
  rintro s (⟨n, l, rfl⟩ | ⟨n, l, rfl⟩ | rfl)
  · exact hreset n l
  · exact ⟨handshakeInv_powerUp n.bits, resultInv_of_not_done (by simp), workInv_of_none rfl,
      latencyInv_of_not_busy (by simp)⟩
  · exact hreset _ _

/-- Settles O59: completion reads `OPA` before `OPB`. -/
theorem unheldOperandFaults : Obligations.UnheldOperandFaults := by
  intro i s
  rw [exec_eq_complete]
  exact ⟨s.complete_of_opa_unheld _, fun a => s.complete_of_opb_unheld _⟩

end Sys2Proof.Machine

/-! PROOFS, family 30_encoding: the fields of a command word, decoding against encoding, and the part of the
mode in the adder/subtractor. -/
namespace Sys2Proof.Machine

/-! ### The mode in ADD and SUB (30_encoding R64, 40_adder_subtractor R85) -/

/-- The mode enters the outcome of the family in `NG` alone: the chain `r` that is read does not depend on it. -/
theorem adderOutcome_eq {N : Nat} (m : Mode) (r : AdderRegs N) :
    adderOutcome m r = .ok (0#N ++ r.sumWord)
      (packFlags (r.carry N) (r.carry (N - 1) ^^ r.carry N) (m.bit && r.sumWord.msb)
        (zeroFlag r.sumWord)) := rfl

/-- An operation whose outcome is read off one chain `r` in both modes completes with one result and one
`C`, `V`, `Z`. -/
theorem exec_of_adderOutcome {s : State} {a b : Word s.width.bits} (ha : s.regs.opa = some a)
    (hb : s.regs.opb = some b) {op : Mode → Instr} {r : AdderRegs s.width.bits}
    (hop : ∀ m, opOutcome (op m) a b = adderOutcome m r) :
    ∃ (lo : Word s.width.bits) (c v z : Bool), ∀ m : Mode, exec (op m) s = .next (s.withRegs
      (s.regs.succeed (0#s.width.bits ++ lo) (packFlags c v (m.bit && lo.msb) z))) := by
  refine ⟨r.sumWord, r.carry s.width.bits, r.carry (s.width.bits - 1) ^^ r.carry s.width.bits,
    zeroFlag r.sumWord, fun m => ?_⟩
  rw [exec_of_held (op m) s ha hb, hop, adderOutcome_eq, Regs.finish]

/-! ### Command words and their fields (30_encoding R60) -/

theorem bit_ofBit (b : Bool) : (Mode.ofBit b).bit = b := by cases b <;> rfl

theorem ofBool_fieldS (w : CmdWord) : BitVec.ofBool (fieldS w) = w.extractLsb' 4 1 := by
  ext i hi
  obtain rfl : i = 0 := by omega
  simp [fieldS]

/-- The three fields, `S` on top, make up the whole word. -/
theorem fields_append (w : CmdWord) :
    BitVec.ofBool (fieldS w) ++ (fieldCls w ++ fieldAlg w) = w := by
  rw [ofBool_fieldS, fieldCls, fieldAlg, BitVec.extractLsb'_append_extractLsb'_eq_extractLsb' (by rfl),
    BitVec.extractLsb'_append_extractLsb'_eq_extractLsb' (by rfl)]
  exact BitVec.extractLsb'_eq_self

/-! ### Decoding against encoding (30_encoding R69) -/

theorem decode_encode (i : Instr) : decode (encode i) = .ok i := by
  cases i with
  | add m | sub m | mulSeq m | mulNaive m | mulBooth2 m | mulBooth4 m | divRest m | divNrest m =>
    cases m <;> rfl

/-- An operation whose code and mode are the fields of a word encodes to that word. -/
theorem encode_eq_of_fields {w : CmdWord} {i : Instr} {cls alg : Nat}
    (hcls : (fieldCls w).toNat = cls) (halg : (fieldAlg w).toNat = alg)
    (hcode : opCode i = BitVec.ofNat 2 cls ++ BitVec.ofNat 2 alg)
    (hmode : i.mode = Mode.ofBit (fieldS w)) : encode i = w := by
  subst hcls halg
  rw [BitVec.ofNat_toNat, BitVec.ofNat_toNat, BitVec.setWidth_eq, BitVec.setWidth_eq] at hcode
  rw [encode, hmode, bit_ofBit, hcode]
  exact fields_append w

/-- Only its encoding decodes to an operation: each row of the table fixes `CLS` and `ALG`, and `S` is the
mode. The row that is left answers no operation. -/
theorem encode_of_decode {w : CmdWord} {i : Instr} (h : decode w = .ok i) : encode i = w := by
  unfold decode at h
  split at h <;> cases h
  all_goals
    next hcls halg => exact encode_eq_of_fields hcls halg rfl rfl

theorem decode_eq_ok_iff (w : CmdWord) (i : Instr) : decode w = .ok i ↔ encode i = w :=
  ⟨encode_of_decode, fun h => h ▸ decode_encode i⟩

/-! ### The statements -/

/-- Settles O14: each of the two operations reads one chain in both modes. -/
theorem addSubModeChangesOnlyNegative : Obligations.AddSubModeChangesOnlyNegative :=
  fun _ _ _ ha hb => ⟨exec_of_adderOutcome ha hb fun _ => rfl, exec_of_adderOutcome ha hb fun _ => rfl⟩

/-- Settles O7: a decoded word is rebuilt from its fields, and every encoding decodes to its operation. -/
theorem decodeIsTheInverseOfEncode : Obligations.DecodeIsTheInverseOfEncode := decode_eq_ok_iff

/-- Settles O8: the eight words are the encodings of their operations, and the ninth stands in no row of the table. -/
theorem tableWordsDecodeToTheirOperations : Obligations.TableWordsDecodeToTheirOperations :=
  ⟨decode_encode (.add .unsigned), decode_encode (.sub .signed), decode_encode (.mulSeq .unsigned),
    decode_encode (.mulNaive .signed), decode_encode (.mulBooth2 .signed),
    decode_encode (.mulBooth4 .unsigned), decode_encode (.divRest .signed),
    decode_encode (.divNrest .unsigned), rfl⟩

end Sys2Proof.Machine

/-! PROOFS, family 40_adder_subtractor: the full-adder cell, the ripple-carry chain against integer addition, and
the flags that are read off its carries. -/
namespace Sys2Proof.Machine

/-! ### The full-adder cell (40_adder_subtractor R81) -/

/-- The carry out of the cell is the majority of its inputs. -/
theorem fullAdder_eq (x y ci : Bool) : fullAdder x y ci = (x ^^ (y ^^ ci), x.atLeastTwo y ci) := by
  simp [fullAdder]

theorem fullAdder_adds (x y ci : Bool) :
    x.toNat + y.toNat + ci.toNat = 2 * (fullAdder x y ci).2.toNat + (fullAdder x y ci).1.toNat := by
  revert x y ci
  decide

/-- The carry into the cell differs from the carry out of it exactly when the inputs agree and the sum bit
differs from them. -/
theorem fullAdder_carries_differ_iff (x y ci : Bool) :
    (ci ^^ (fullAdder x y ci).2) = true ↔ x = y ∧ (fullAdder x y ci).1 ≠ x := by
  revert x y ci
  decide

/-! ### Lists of bits as words (00_scope R10) -/

theorem testBit_bitsToNat (bs : List Bool) (k : Nat) : (bitsToNat bs).testBit k = bs.getD k false := by
  induction bs generalizing k with
  | nil => simp [bitsToNat]
  | cons b bs ih =>
    have hbit : bitsToNat (b :: bs) = Nat.bit b (bitsToNat bs) := by
      rw [bitsToNat, Nat.bit_val, Nat.add_comm]
    rw [hbit]
    cases k with
    | zero => simp
    | succ k => rw [Nat.testBit_bit_succ, ih, List.getD_cons_succ]

/-! ### The chain (40_adder_subtractor R82)

The carries of the loop are the library's `BitVec.carry`: `carry k x y cin` says whether the low `k` bits of the
inputs, with the carry-in, reach `2^k`. -/

section Chain
variable {N : Nat} (x y : Word N) (cin : Bool)

/-- After `j` bit positions the carries up to `c[j]` and the sum bits below `j` stand. -/
theorem iterate_adderStep (j : Nat) :
    iterate AdderRegs.step j (AdderRegs.start x y cin) =
      { x := x, y := y, i := j
        c := (List.range (j + 1)).map fun k => BitVec.carry k x y cin
        sum := (List.range j).map fun k => x.getLsbD k ^^ (y.getLsbD k ^^ BitVec.carry k x y cin) } := by
  induction j with
  | zero => simp [AdderRegs.start]
  | succ j ih =>
    rw [iterate_succ, ih, List.range_succ (n := j + 1), List.range_succ (n := j)]
    simp [AdderRegs.step, fullAdder_eq, BitVec.carry_succ]

theorem chain_carry {k : Nat} (hk : k ≤ N) : (chain x y cin).carry k = BitVec.carry k x y cin := by
  simp [chain, AdderRegs.carry, iterate_adderStep, List.getD, Nat.lt_succ_of_le hk]

theorem chain_carry_out :
    (chain x y cin).carry N = decide (2 ^ N ≤ x.toNat + y.toNat + cin.toNat) := by
  rw [chain_carry x y cin le_rfl, BitVec.carry_width]

theorem chain_sumWord : (chain x y cin).sumWord = x + y + (BitVec.ofBool cin).setWidth N := by
  refine BitVec.eq_of_getLsbD_eq fun k hk => ?_
  rw [BitVec.getLsbD_add_add_bool hk, AdderRegs.sumWord, chain, iterate_adderStep, BitVec.getLsbD_ofNat,
    testBit_bitsToNat]
  simp [List.getD, hk]

/-- The loop body of R82, read off the finished chain. -/
theorem chain_cell {k : Nat} (hk : k < N) :
    ((chain x y cin).sumWord.getLsbD k, (chain x y cin).carry (k + 1)) =
      fullAdder (x.getLsbD k) (y.getLsbD k) ((chain x y cin).carry k) := by
  rw [chain_sumWord, BitVec.getLsbD_add_add_bool hk, chain_carry x y cin hk, chain_carry x y cin hk.le,
    fullAdder_eq, BitVec.carry_succ]

theorem chain_top_cell (hN : 0 < N) :
    ((chain x y cin).sumWord.msb, (chain x y cin).carry N) =
      fullAdder x.msb y.msb ((chain x y cin).carry (N - 1)) := by
  have hcell := chain_cell x y cin (Nat.sub_lt hN Nat.one_pos)
  rwa [Nat.sub_add_cancel hN, ← BitVec.msb_eq_getLsbD_last, ← BitVec.msb_eq_getLsbD_last,
    ← BitVec.msb_eq_getLsbD_last] at hcell

/-- The unsigned law of R82: the carry out and the sum are quotient and remainder by `2^N`. -/
theorem chain_adds_unsigned : x.toNat + y.toNat + cin.toNat =
    2 ^ N * ((chain x y cin).carry N).toNat + (chain x y cin).sumWord.toNat := by
  have hx := x.isLt
  have hy := y.isLt
  have hcin := cin.toNat_le
  have hsum : (chain x y cin).sumWord.toNat = (x.toNat + y.toNat + cin.toNat) % 2 ^ N := by
    simp [chain_sumWord]
  rw [hsum, chain_carry_out]
  by_cases hout : 2 ^ N ≤ x.toNat + y.toNat + cin.toNat
  · rw [Nat.mod_eq_sub_mod hout, Nat.mod_eq_of_lt (by omega)]
    simp [hout]
  · simp [hout, Nat.mod_eq_of_lt (Nat.lt_of_not_le hout)]

/-- Read as signed integers the two top carries stand for `2^N`, with opposite signs. -/
theorem chain_adds_signed (hN : 0 < N) : x.toInt + y.toInt + cin.toNat =
    (chain x y cin).sumWord.toInt +
      2 ^ N * (((chain x y cin).carry (N - 1)).toNat - ((chain x y cin).carry N).toNat) := by
  have hunsigned := chain_adds_unsigned x y cin
  have hcell := fullAdder_adds x.msb y.msb ((chain x y cin).carry (N - 1))
  rw [← chain_top_cell x y cin hN] at hcell
  have htoInt (v : Word N) : v.toInt = v.toNat - 2 ^ N * v.msb.toNat := by
    rw [BitVec.toInt_eq_msb_cond]
    cases v.msb <;> simp
  rw [htoInt, htoInt, htoInt]
  zify at hunsigned hcell
  linear_combination hunsigned - 2 ^ N * hcell

/-! ### The flags of the chain (40_adder_subtractor R85, R86) -/

/-- The sum as written is the true signed sum, or has wrapped downwards or upwards by `2^N`; the two top carries
differ exactly when it has wrapped, and its sign says in which direction. -/
theorem chain_wrap_cases (hN : 0 < N) :
    (((chain x y cin).carry (N - 1) ^^ (chain x y cin).carry N) = false ∧
      x.toInt + y.toInt + cin.toNat = (chain x y cin).sumWord.toInt) ∨
    (((chain x y cin).carry (N - 1) ^^ (chain x y cin).carry N) = true ∧
      (chain x y cin).sumWord.toInt < 0 ∧
      x.toInt + y.toInt + cin.toNat = (chain x y cin).sumWord.toInt + 2 ^ N) ∨
    (((chain x y cin).carry (N - 1) ^^ (chain x y cin).carry N) = true ∧
      0 ≤ (chain x y cin).sumWord.toInt ∧
      x.toInt + y.toInt + cin.toNat = (chain x y cin).sumWord.toInt - 2 ^ N) := by
  have hlaw := chain_adds_signed x y cin hN
  have hpow : (2 : Int) ^ N = 2 * 2 ^ (N - 1) := (mul_pow_sub_one hN.ne' 2).symm
  have hxlow := x.le_toInt
  have hylow := y.le_toInt
  have hxhigh := x.toInt_lt
  have hyhigh := y.toInt_lt
  have hcin := cin.toNat_le
  match (chain x y cin).carry (N - 1), (chain x y cin).carry N, hlaw with
  | false, false, hlaw | true, true, hlaw => exact .inl ⟨rfl, by simpa using hlaw⟩
  | true, false, hlaw =>
    rw [Bool.toNat_true, Bool.toNat_false] at hlaw
    exact .inr (.inl ⟨rfl, by omega, by omega⟩)
  | false, true, hlaw =>
    rw [Bool.toNat_true, Bool.toNat_false] at hlaw
    exact .inr (.inr ⟨rfl, by omega, by omega⟩)

/-- `V` says that the true signed sum leaves the range. -/
theorem chain_overflow (hN : 0 < N) :
    ((chain x y cin).carry (N - 1) ^^ (chain x y cin).carry N) =
      !decide (-2 ^ (N - 1) ≤ x.toInt + y.toInt + cin.toNat ∧
        x.toInt + y.toInt + cin.toNat ≤ 2 ^ (N - 1) - 1) := by
  have hpow : (2 : Int) ^ N = 2 * 2 ^ (N - 1) := (mul_pow_sub_one hN.ne' 2).symm
  have hlow := (chain x y cin).sumWord.le_toInt
  have hhigh := (chain x y cin).sumWord.toInt_lt
  obtain ⟨hv, htrue⟩ | ⟨hv, -, htrue⟩ | ⟨hv, -, htrue⟩ := chain_wrap_cases x y cin hN
  all_goals
    rw [hv, htrue, eq_comm]
    simp only [Bool.not_eq_true', Bool.not_eq_false', decide_eq_true_eq, decide_eq_false_iff_not]
    omega

/-- `NG` in signed mode, corrected by `V`, is the sign of the true sum. -/
theorem chain_sign (hN : 0 < N) :
    ((chain x y cin).sumWord.msb ^^ ((chain x y cin).carry (N - 1) ^^ (chain x y cin).carry N)) =
      decide (x.toInt + y.toInt + cin.toNat < 0) := by
  have hlow := (chain x y cin).sumWord.le_two_mul_toInt
  have hhigh := (chain x y cin).sumWord.two_mul_toInt_lt
  rw [BitVec.msb_eq_toInt]
  obtain ⟨hv, htrue⟩ | ⟨hv, hneg, htrue⟩ | ⟨hv, hnonneg, htrue⟩ := chain_wrap_cases x y cin hN
  · rw [hv, htrue, Bool.xor_false]
  · rw [hv, htrue, decide_eq_true hneg, eq_comm]
    exact decide_eq_false (by omega)
  · rw [hv, htrue, decide_eq_false (not_lt.mpr hnonneg), eq_comm]
    exact decide_eq_true (by omega)

end Chain

/-! ### ADD and SUB at Level O (40_adder_subtractor R83, R84) -/

theorem addChain_sumWord {N : Nat} (a b : Word N) : (chain a b false).sumWord = a + b := by
  simp [chain_sumWord]

theorem subChain_sumWord {N : Nat} (a b : Word N) : (chain a (~~~b) true).sumWord = a - b := by
  rw [chain_sumWord, BitVec.sub_eq_add_neg, BitVec.neg_eq_not_add, ← BitVec.add_assoc]
  exact congrArg (a + ~~~b + ·) (BitVec.eq_of_toNat_eq (by simp))

theorem subChain_carry_out {N : Nat} (a b : Word N) :
    (chain a (~~~b) true).carry N = decide (b.toNat ≤ a.toNat) := by
  have hb := b.isLt
  rw [chain_carry_out, BitVec.toNat_not, Bool.toNat_true]
  exact decide_eq_decide.mpr (by omega)

/-- The complement and the carry-in of `SUB` together subtract. -/
theorem toInt_add_not_add_one {N : Nat} (hN : 0 < N) (a b : Word N) :
    a.toInt + (~~~b).toInt + (true.toNat : Int) = a.toInt - b.toInt := by
  have hb := b.isLt
  have hnot : (~~~b).toNat + b.toNat + 1 = 2 ^ N := by rw [BitVec.toNat_not]; omega
  zify at hnot
  rw [BitVec.toInt_eq_msb_cond (~~~b), BitVec.toInt_eq_msb_cond b, BitVec.msb_not]
  cases b.msb <;> simp [hN, -BitVec.toNat_not] <;> omega

theorem addOutcome_eq {N : Nat} (hN : 0 < N) (m : Mode) (a b : Word N) :
    addOutcome m a b = .ok (0#N ++ (a + b)) (packFlags
      (decide (2 ^ N ≤ a.toNat + b.toNat))
      (!decide (-2 ^ (N - 1) ≤ a.toInt + b.toInt ∧ a.toInt + b.toInt ≤ 2 ^ (N - 1) - 1))
      (m.bit && (a + b).msb) (a + b == 0)) := by
  rw [addOutcome, adderOutcome_eq, addChain_sumWord, chain_overflow a b false hN, chain_carry_out, Bool.toNat_false,
    Nat.add_zero, Nat.cast_zero, Int.add_zero]
  rfl

theorem subOutcome_eq {N : Nat} (hN : 0 < N) (m : Mode) (a b : Word N) :
    subOutcome m a b = .ok (0#N ++ (a - b)) (packFlags
      (decide (b.toNat ≤ a.toNat))
      (!decide (-2 ^ (N - 1) ≤ a.toInt - b.toInt ∧ a.toInt - b.toInt ≤ 2 ^ (N - 1) - 1))
      (m.bit && (a - b).msb) (a - b == 0)) := by
  rw [subOutcome, adderOutcome_eq, subChain_sumWord, chain_overflow a (~~~b) true hN, subChain_carry_out,
    toInt_add_not_add_one hN]
  rfl

/-- Signed comparison by subtraction: the sign of the difference as written is wrong exactly on overflow. -/
theorem sub_msb_xor_overflow {N : Nat} (hN : 0 < N) (a b : Word N) :
    ((a - b).msb ^^ !decide (-2 ^ (N - 1) ≤ a.toInt - b.toInt ∧ a.toInt - b.toInt ≤ 2 ^ (N - 1) - 1)) =
      decide (a.toInt < b.toInt) := by
  have hsign := chain_sign a (~~~b) true hN
  rw [subChain_sumWord, chain_overflow a (~~~b) true hN, toInt_add_not_add_one hN] at hsign
  rw [hsign]
  exact decide_eq_decide.mpr sub_neg

theorem sub_beq_zero {N : Nat} (a b : Word N) : (a - b == 0) = decide (a = b) :=
  decide_eq_decide.mpr sub_eq_zero

/-! ### The statements -/

/-- Settles O10: the unsigned law of the chain, and each carry as the library's carry of the low bits. -/
theorem chainAddsItsInputs : Obligations.ChainAddsItsInputs :=
  fun _ x y cin => ⟨chain_adds_unsigned x y cin, fun _ hk => chain_carry x y cin hk⟩

/-- Settles O11, by the two carries of the top cell. -/
theorem overflowRulesAgreeOnTheChain : Obligations.OverflowRulesAgreeOnTheChain := by
  intro N x y cin hN
  have hdiffer := fullAdder_carries_differ_iff x.msb y.msb ((chain x y cin).carry (N - 1))
  rwa [← chain_top_cell x y cin hN] at hdiffer

/-- Settles O12: the completing operation records the outcome of `ADD`. -/
theorem addWritesSumAndFlags : Obligations.AddWritesSumAndFlags := by
  intro m s a b ha hb
  refine ⟨by cases m <;> rfl, ?_⟩
  rw [exec_of_held (.add m) s ha hb, opOutcome, addOutcome_eq s.width.pos]
  rfl

/-- Settles O13: the completing operation records the outcome of `SUB`. -/
theorem subWritesDifferenceAndFlags : Obligations.SubWritesDifferenceAndFlags := by
  intro m s a b ha hb
  refine ⟨by cases m <;> rfl, ?_⟩
  rw [exec_of_held (.sub m) s ha hb, opOutcome, subOutcome_eq s.width.pos]
  rfl

/-- Settles O15: `C` says that no borrow occurred, and `NG` corrected by `V` is the sign of the true difference. -/
theorem subFlagsCompareTheOperands : Obligations.SubFlagsCompareTheOperands := by
  intro N a b hN
  refine ⟨⟨_, _, subOutcome_eq hN .signed a b, ?_, ?_⟩, ⟨_, _, subOutcome_eq hN .unsigned a b, ?_, ?_⟩⟩
  · rw [flagNG_packFlags, flagV_packFlags]
    exact sub_msb_xor_overflow hN a b
  · rw [flagZ_packFlags, sub_beq_zero]
  · rw [flagC_packFlags, ← decide_not]
    exact decide_eq_decide.mpr Nat.not_le
  · rw [flagZ_packFlags, sub_beq_zero]

/-- Settles O9: the cell's equations, and its integer law over the eight inputs. -/
theorem fullAdderAddsThreeBits : Obligations.FullAdderAddsThreeBits :=
  fun x y ci => ⟨rfl, fullAdder_adds x y ci⟩

end Sys2Proof.Machine

/-! PROOFS, family 41_multipliers: the exact product and its flags, the shift-add multipliers against their partial
products, and the two Booth multipliers by one invariant over the accumulator `{A, Q}`. -/
namespace Sys2Proof.Machine

/-! ### The exact product (41_multipliers R101, R102) -/

/-- The residue of an integer, written as the library writes it. -/
theorem toNat_ofInt_eq_emod (w : Nat) (x : Int) : ((BitVec.ofInt w x).toNat : Int) = x % 2 ^ w :=
  toNat_fromInt w x

theorem natAbs_val_lt {w : Nat} (m : Mode) (v : BitVec w) : (val m v).natAbs < 2 ^ w := by
  rw [← toNat_mag]
  exact (mag m v).isLt

theorem mul_lt_two_pow_add {x y n k : Nat} (hx : x < 2 ^ n) (hy : y < 2 ^ k) :
    x * y < 2 ^ (n + k) := by
  rw [pow_add]
  exact Nat.mul_lt_mul'' hx hy

theorem abs_toInt_le {n : Nat} (v : BitVec (n + 1)) : |v.toInt| ≤ 2 ^ n :=
  abs_le.mpr ⟨v.le_toInt, v.toInt_lt.le⟩

/-- The true product needs no more than `2N` bits in the mode of its operands. -/
theorem fits_product {N : Nat} (hN : 0 < N) (m : Mode) (a b : Word N) :
    fits (N + N) m (val m a * val m b) = true := by
  cases m with
  | unsigned =>
    simp only [fits, val_unsigned, decide_eq_true_eq]
    exact ⟨by positivity, by exact_mod_cast mul_lt_two_pow_add a.isLt b.isLt⟩
  | signed =>
    simp only [fits, val_signed, decide_eq_true_eq]
    obtain ⟨n, rfl⟩ := Nat.exists_eq_add_one.mpr hN
    have hlt : |a.toInt * b.toInt| < 2 ^ (n + 1 + (n + 1) - 1) := by
      calc |a.toInt * b.toInt| = |a.toInt| * |b.toInt| := abs_mul _ _
        _ ≤ 2 ^ n * 2 ^ n := by gcongr <;> exact abs_toInt_le _
        _ = 2 ^ (n + n) := (pow_add 2 n n).symm
        _ < 2 ^ (n + 1 + (n + 1) - 1) := pow_lt_pow_right₀ (by decide) (by omega)
    obtain ⟨hlow, hhigh⟩ := abs_lt.mp hlt
    exact ⟨hlow.le, hhigh⟩

/-- An integer in the range of a width is the logical value of its residue. -/
theorem val_ofInt_of_fits {w : Nat} (hw : 0 < w) {m : Mode} {x : Int} (h : fits w m x = true) :
    val m (BitVec.ofInt w x) = x := by
  cases m with
  | unsigned =>
    obtain ⟨hlow, hhigh⟩ := of_decide_eq_true h
    rw [val_unsigned, toNat_ofInt_eq_emod, Int.emod_eq_of_lt hlow hhigh]
  | signed =>
    obtain ⟨hlow, hhigh⟩ := of_decide_eq_true h
    rw [val_signed, BitVec.toInt_ofInt_eq_self hw hlow hhigh]

/-- The outcome of a multiply that leaves the product of the logical values in `RES`. -/
def productOutcome {N : Nat} (m : Mode) (a b : Word N) : OpOutcome N :=
  mulOutcome m a b (BitVec.ofInt (N + N) (val m a * val m b))

theorem productOutcome_eq {N : Nat} (hN : 0 < N) (m : Mode) (a b : Word N) :
    productOutcome m a b = .ok (BitVec.ofInt (N + N) (val m a * val m b)) (packFlags false false
      (m.bit && (BitVec.ofInt (N + N) (val m a * val m b)).msb)
      (BitVec.ofInt (N + N) (val m a * val m b) == 0)) := by
  rw [productOutcome, mulOutcome, mulFlags, mulOverflow, fits_product hN]
  rfl

/-- An operation with that outcome completes with the product and its flags. -/
theorem exec_of_productOutcome {i : Instr} {m : Mode} {s : State} {a b : Word s.width.bits}
    (ha : s.regs.opa = some a) (hb : s.regs.opb = some b)
    (h : opOutcome i a b = productOutcome m a b) :
    exec i s = .next (s.withRegs (s.regs.succeed
      (BitVec.ofInt (s.width.bits + s.width.bits) (val m a * val m b))
      (packFlags false false
        (m.bit && (BitVec.ofInt (s.width.bits + s.width.bits) (val m a * val m b)).msb)
        (BitVec.ofInt (s.width.bits + s.width.bits) (val m a * val m b) == 0)))) := by
  rw [exec_of_held i s ha hb, h, productOutcome_eq s.width.pos, Regs.finish]

/-! ### Sign and magnitude (41_multipliers R103) -/

theorem val_eq_sgn_mul_mag {w : Nat} (m : Mode) (v : BitVec w) :
    val m v = (if sgn m v then -1 else 1) * ((mag m v).toNat : Int) := by
  have hlt : (v.toNat : Int) < 2 ^ w := by exact_mod_cast v.isLt
  rw [toNat_mag]
  cases hs : sgn m v with
  | true =>
    have hval : val m v = v.toNat - 2 ^ w := if_pos hs
    simp only [if_true]
    omega
  | false =>
    have hval : val m v = v.toNat := if_neg (Bool.eq_false_iff.mp hs)
    simp [hval]

/-- Restoring the sign of the product of the magnitudes gives the product of the logical values. -/
theorem negIf_productSign {N : Nat} {m : Mode} {a b : Word N} {u : DWord N}
    (hu : u.toNat = (mag m a).toNat * (mag m b).toNat) :
    negIf (productSign m a b) u = BitVec.ofInt (N + N) (val m a * val m b) := by
  have hofInt : BitVec.ofInt (N + N) ((mag m a).toNat * (mag m b).toNat : Int) = u := by
    rw [← Nat.cast_mul, ← hu, BitVec.ofInt_natCast, BitVec.ofNat_toNat, BitVec.setWidth_eq]
  rw [val_eq_sgn_mul_mag m a, val_eq_sgn_mul_mag m b, productSign]
  cases sgn m a <;> cases sgn m b <;> simp [negIf, neg_eq_bitVec_neg, BitVec.ofInt_neg, hofInt]

/-! ### Shift and add (41_multipliers R104, R105, R110, R111) -/

/-- The low bits of a word, one more of them at a time. -/
theorem toNat_mod_two_pow_succ {w : Nat} (v : BitVec w) (c : Nat) :
    v.toNat % 2 ^ (c + 1) = v.toNat % 2 ^ c + 2 ^ c * (v.getLsbD c).toNat := by
  rw [Nat.mod_pow_succ, BitVec.getLsbD, Nat.toNat_testBit]

section ShiftAdd
variable {N : Nat} (ma mb : Word N)

/-- The sum of the first `j` partial products. -/
def partialSum (j : Nat) : DWord N := ((List.range j).map (partialProduct ma mb)).foldl (· + ·) 0

theorem partialSum_succ (j : Nat) :
    partialSum ma mb (j + 1) = partialSum ma mb j + partialProduct ma mb j := by
  simp [partialSum, List.range_succ]

/-- No set bit is shifted out of the multiplicand. -/
theorem toNat_shl_zext {j : Nat} (hj : j ≤ N) :
    (shl (zext (N + N) ma) j).toNat = ma.toNat * 2 ^ j := by
  have hlt : ma.toNat * 2 ^ j < 2 ^ (N + N) := by
    rw [pow_add]
    exact Nat.mul_lt_mul_of_lt_of_le ma.isLt (Nat.pow_le_pow_right (by decide) hj) (by positivity)
  have hzext : (zext (N + N) ma).toNat = ma.toNat :=
    BitVec.toNat_setWidth_of_le (Nat.le_add_left N N)
  rw [shl, BitVec.toNat_shiftLeft, Nat.shiftLeft_eq, hzext, Nat.mod_eq_of_lt hlt]

theorem toNat_partialProduct {j : Nat} (hj : j ≤ N) :
    (partialProduct ma mb j).toNat = if mb.getLsbD j then ma.toNat * 2 ^ j else 0 := by
  rw [partialProduct, apply_ite BitVec.toNat, toNat_shl_zext ma hj]
  rfl

theorem toNat_partialSum {j : Nat} (hj : j ≤ N) :
    (partialSum ma mb j).toNat = ma.toNat * (mb.toNat % 2 ^ j) := by
  induction j with
  | zero => simp [partialSum, Nat.mod_one]
  | succ j ih =>
    have hlt : ma.toNat * (mb.toNat % 2 ^ (j + 1)) < 2 ^ (N + N) :=
      mul_lt_two_pow_add ma.isLt ((Nat.mod_le _ _).trans_lt mb.isLt)
    have hadd : ma.toNat * (mb.toNat % 2 ^ j) + (if mb.getLsbD j then ma.toNat * 2 ^ j else 0) =
        ma.toNat * (mb.toNat % 2 ^ (j + 1)) := by
      rw [toNat_mod_two_pow_succ, Nat.mul_add]
      cases mb.getLsbD j <;> simp
    rw [partialSum_succ, BitVec.toNat_add, ih (by omega), toNat_partialProduct ma mb (by omega), hadd,
      Nat.mod_eq_of_lt hlt]

theorem toNat_partialSum_width : (partialSum ma mb N).toNat = ma.toNat * mb.toNat := by
  rw [toNat_partialSum ma mb le_rfl, BitVec.toNat_mod_cancel]

end ShiftAdd

section SignMagnitude
variable {N : Nat} (m : Mode) (a b : Word N)

/-- Step `j` of `MUL.SEQ` adds what `MUL.NAIVE` writes as `PP[j]`. -/
theorem iterate_seqStep (j : Nat) :
    iterate SeqRegs.step j (SeqRegs.start m a b) =
      { acc := partialSum (mag m a) (mag m b) j
        mcand := shl (zext (N + N) (mag m a)) j
        mplier := shr (mag m b) j
        sgn := productSign m a b
        i := j } := by
  induction j with
  | zero => simp [SeqRegs.start, partialSum, shl, shr]
  | succ j ih =>
    rw [iterate_succ, ih, partialSum_succ, partialProduct]
    cases h : (mag m b).getLsbD j <;>
      simp [SeqRegs.step, shl, shr, h, BitVec.shiftLeft_add, BitVec.shiftRight_add]

theorem seqRun_acc : (seqRun m a b).acc = partialSum (mag m a) (mag m b) N := by
  rw [seqRun, iterate_seqStep]

theorem naiveRun_sum : (naiveRun m a b).sum = some (partialSum (mag m a) (mag m b) N) := by
  rw [naiveRun_eq, partialSum]

theorem opOutcome_mulSeq : opOutcome (.mulSeq m) a b = productOutcome m a b := by
  have hproduct : (seqRun m a b).product = negIf (productSign m a b) (seqRun m a b).acc := by
    rw [SeqRegs.product, seqRun, iterate_seqStep]
  rw [opOutcome, mulSeqOutcome, productOutcome, hproduct, seqRun_acc,
    negIf_productSign (toNat_partialSum_width _ _)]

theorem opOutcome_mulNaive : opOutcome (.mulNaive m) a b = productOutcome m a b := by
  have hsum : naiveSum m a b = partialSum (mag m a) (mag m b) N := by
    rw [naiveSum, naiveRun_eq, partialSum]
  rw [opOutcome, mulNaiveOutcome, productOutcome, hsum, negIf_productSign (toNat_partialSum_width _ _)]

end SignMagnitude

/-! ### Booth recoding (41_multipliers R115, R123) -/

section Recoding
variable {L : Nat} (be : BitVec L)

/-- The bit below position `c`, which is 0 below position 0. -/
def bitBelow (c : Nat) : Bool := decide (0 < c) && be.getLsbD (c - 1)

@[simp] theorem bitBelow_zero : bitBelow be 0 = false := rfl

@[simp] theorem bitBelow_succ (c : Nat) : bitBelow be (c + 1) = be.getLsbD c := by simp [bitBelow]

theorem bitBelow_of_pos {c : Nat} (hc : 0 < c) : bitBelow be c = be.getLsbD (c - 1) := by
  simp [bitBelow, hc]

theorem bitBelow_width : bitBelow be L = be.msb := by
  rw [BitVec.msb_eq_getLsbD_last]
  cases L with
  | zero => simp
  | succ L => simp

theorem toInt_lowBits (c : Nat) :
    (be.extractLsb' 0 c).toInt = (be.toNat % 2 ^ c : Nat) - 2 ^ c * ((bitBelow be c).toNat : Int) := by
  have hmsb : (be.extractLsb' 0 c).msb = bitBelow be c := by
    cases c with
    | zero => simp
    | succ c => simp [BitVec.msb_eq_getLsbD_last]
  rw [BitVec.toInt_eq_msb_cond, hmsb, BitVec.extractLsb'_toNat]
  cases bitBelow be c <;> simp

/-- The digit `d` recodes the `k` bits of `be` from position `c` on: reading them besides the `c` bits below adds
`d * 2^c` to the value read as signed. -/
def IsDigit (c k : Nat) (d : Int) : Prop :=
  (be.extractLsb' 0 (c + k)).toInt = (be.extractLsb' 0 c).toInt + d * 2 ^ c

/-- One more bit read has the radix-2 digit of its window as its weight. -/
theorem isDigit_radix2 (c : Nat) : IsDigit be c 1 ((bitBelow be c).toNat - (be.getLsbD c).toNat) := by
  rw [IsDigit, toInt_lowBits, toInt_lowBits, toNat_mod_two_pow_succ, bitBelow_succ]
  push_cast
  ring

/-- `DIGIT(x2, x1, x0)` as an integer. -/
def digitValue (x2 x1 x0 : Bool) : Int := -2 * (x2.toNat : Int) + x1.toNat + x0.toNat

/-- Two more bits read have the radix-4 digit of their window as their weight. -/
theorem isDigit_radix4 (c : Nat) :
    IsDigit be c 2 (digitValue (be.getLsbD (c + 1)) (be.getLsbD c) (bitBelow be c)) := by
  have hlow := isDigit_radix2 be c
  have hhigh := isDigit_radix2 be (c + 1)
  rw [IsDigit] at hlow hhigh ⊢
  rw [hhigh, hlow, bitBelow_succ, digitValue]
  ring

end Recoding

/-- Row by row of the table: the action of a window multiplies by its digit. -/
theorem digitTimes_boothDigit {w : Nat} (x2 x1 x0 : Bool) (me : BitVec w) :
    digitTimes (boothDigit x2 x1 x0) me = me * BitVec.ofInt w (digitValue x2 x1 x0) := by
  have htwo : shl me 1 = me * BitVec.ofInt w 2 := by
    rw [shl, BitVec.shiftLeft_eq_mul_twoPow, BitVec.ofInt_ofNat]
    exact congrArg (me * ·) (BitVec.eq_of_toNat_eq (by simp))
  cases x2 <;> cases x1 <;> cases x0 <;>
    simp [boothDigit, digitTimes, digitValue, neg_eq_bitVec_neg, htwo, BitVec.ofInt_neg]

/-- The digits of the windows, weighted by their positions, recode the multiplier read as signed. -/
theorem sum_digitTimes {w L : Nat} (be : BitVec L) (me : BitVec w) (K : Nat) :
    ((List.range K).map (fun i =>
        digitTimes (boothDigit (be.getLsbD (2 * i + 1)) (be.getLsbD (2 * i))
          (decide (0 < i) && be.getLsbD (2 * i - 1))) me * BitVec.ofNat w (4 ^ i))).sum
      = me * BitVec.ofInt w (be.extractLsb' 0 (2 * K)).toInt := by
  induction K with
  | zero => simp
  | succ K ih =>
    have hbelow : (decide (0 < K) && be.getLsbD (2 * K - 1)) = bitBelow be (2 * K) := by
      simp [bitBelow]
    have hweight : BitVec.ofNat w (4 ^ K) = BitVec.ofInt w (2 ^ (2 * K)) := by
      rw [← BitVec.ofInt_natCast, Nat.cast_pow, pow_mul]
      rfl
    rw [List.range_succ, List.map_append, List.sum_append, ih, List.map_singleton, List.sum_singleton,
      hbelow, digitTimes_boothDigit, hweight, Nat.mul_succ, isDigit_radix4 be (2 * K), BitVec.ofInt_add,
      BitVec.ofInt_mul, BitVec.mul_add, BitVec.mul_assoc]

/-! ### Words read as signed integers: halves, shifts and products -/

theorem toInt_append_of_pos {N L : Nat} (hN : 0 < N) (x : BitVec N) (y : BitVec L) :
    (x ++ y).toInt = x.toInt * 2 ^ L + y.toNat := by
  rw [BitVec.toInt_append, if_neg (by simpa using hN.ne'), mul_comm]

/-- The upper bits of a word are its arithmetic shift: a quotient rounded down. -/
theorem toInt_extractLsb'_top {w n k : Nat} (x : BitVec w) (hw : n + k = w) (hn : 0 < n) :
    (x.extractLsb' k n).toInt = x.toInt / 2 ^ k := by
  subst hw
  have hlow : ((x.extractLsb' 0 k).toNat : Int) < 2 ^ k := by exact_mod_cast (x.extractLsb' 0 k).isLt
  have hsplit : x.toInt = (x.extractLsb' k n).toInt * 2 ^ k + (x.extractLsb' 0 k).toNat := by
    rw [← toInt_append_of_pos hn, BitVec.extractLsb'_append_extractLsb'_eq_extractLsb' (by omega),
      BitVec.extractLsb'_eq_self]
  exact ((Int.ediv_emod_unique (by positivity)).mpr ⟨by linarith, by positivity, hlow⟩).1.symm

/-- The lower bits of a word, however it is read, are its remainder. -/
theorem toNat_extractLsb'_low {w k : Nat} (x : BitVec w) (hk : k ≤ w) :
    ((x.extractLsb' 0 k).toNat : Int) = x.toInt % 2 ^ k := by
  have hnat : (x.toNat : Int) = x.toInt % 2 ^ w := by
    rw [← toNat_ofInt_eq_emod, BitVec.ofInt_toInt]
  rw [BitVec.extractLsb'_toNat, Nat.shiftRight_zero, Int.natCast_emod, hnat]
  push_cast
  exact Int.emod_emod_of_dvd _ (pow_dvd_pow 2 hk)

theorem ext_mul_ofInt {w n : Nat} (m : Mode) (v : BitVec w) (h : w < n) (d : Int) :
    ext n m v * BitVec.ofInt n d = BitVec.ofInt n (val m v * d) := by
  rw [← toInt_ext_of_lt m v h, BitVec.ofInt_mul, BitVec.ofInt_toInt]

/-- A multiplicand times a signed word stays within the sum of their widths, less the sign bit. -/
theorem abs_mul_toInt_lt {N w : Nat} {M : Int} (hM : M.natAbs < 2 ^ N) (hw : 0 < w) (v : BitVec w) :
    |M * v.toInt| < 2 ^ (N + w - 1) := by
  obtain ⟨n, rfl⟩ := Nat.exists_eq_add_one.mpr hw
  have hM' : |M| < 2 ^ N := by rw [Int.abs_eq_natAbs]; exact_mod_cast hM
  calc |M * v.toInt| = |M| * |v.toInt| := abs_mul _ _
    _ ≤ |M| * 2 ^ n := by gcongr; exact abs_toInt_le v
    _ < 2 ^ N * 2 ^ n := by gcongr
    _ = 2 ^ (N + (n + 1) - 1) := (pow_add 2 N n).symm

/-! ### The accumulator of a Booth multiplier (41_multipliers R116, R118, R126, R129)

Both multipliers keep one value in `{A, Q}`: the product so far stands above the multiplier bits not yet read. A step
adds a digit of the multiplicand to `A` and shifts the whole to the right by the bits it has read. -/

/-- After reading `c` bits of the multiplier `be`, the accumulator holds `M` times those bits read as signed, above
the unread bits; `QM1` is the last bit read. -/
structure BoothInv {N L : Nat} (M : Int) (be : BitVec L) (c : Nat) (a : Word N) (q : BitVec L)
    (qm1 : Bool) : Prop where
  value : (a ++ q).toInt = M * (be.extractLsb' 0 c).toInt * 2 ^ (L - c) + (be.toNat / 2 ^ c : Nat)
  lastRead : qm1 = bitBelow be c

theorem boothInv_start {N L : Nat} (hN : 0 < N) (M : Int) (be : BitVec L) :
    BoothInv M be 0 (0 : Word N) be false where
  value := by simp [toInt_append_of_pos hN]
  lastRead := rfl

section Booth
variable {N L c k : Nat} {M : Int} {be : BitVec L} {a : Word N} {q : BitVec L} {qm1 : Bool}

theorem toNat_div_two_pow_lt (be : BitVec L) (hc : c ≤ L) : be.toNat / 2 ^ c < 2 ^ (L - c) := by
  rw [Nat.div_lt_iff_lt_mul (by positivity), ← pow_add, Nat.sub_add_cancel hc]
  exact be.isLt

theorem BoothInv.toInt_top (h : BoothInv M be c a q qm1) (hN : 0 < N) (hc : c ≤ L) :
    ((a ++ q).extractLsb' (L - c) (N + c)).toInt = M * (be.extractLsb' 0 c).toInt := by
  have hunread : ((be.toNat / 2 ^ c : Nat) : Int) < 2 ^ (L - c) := by
    exact_mod_cast toNat_div_two_pow_lt be hc
  rw [toInt_extractLsb'_top _ (by omega) (by omega), h.value, add_comm,
    Int.add_mul_ediv_right _ _ (by positivity), Int.ediv_eq_zero_of_lt (by positivity) hunread, zero_add]

theorem BoothInv.unread (h : BoothInv M be c a q qm1) (hN : 0 < N) (hc : c ≤ L) :
    q.extractLsb' 0 (L - c) = be.extractLsb' c (L - c) := by
  have hunread := toNat_div_two_pow_lt be hc
  have happend : q.extractLsb' 0 (L - c) = (a ++ q).extractLsb' 0 (L - c) :=
    (BitVec.extractLsb'_append_eq_of_add_le (by omega)).symm
  apply BitVec.eq_of_toNat_eq
  zify
  rw [happend, toNat_extractLsb'_low _ (by omega), h.value, Int.mul_add_emod_self_right,
    BitVec.extractLsb'_toNat, Nat.shiftRight_eq_div_pow, Nat.mod_eq_of_lt hunread]
  exact Int.emod_eq_of_lt (by positivity) (by exact_mod_cast hunread)

theorem BoothInv.getLsbD_eq (h : BoothInv M be c a q qm1) (hN : 0 < N) {i : Nat} (hi : c + i < L) :
    q.getLsbD i = be.getLsbD (c + i) := by
  have hbit := congrArg (BitVec.getLsbD · i) (h.unread hN (by omega))
  simpa [show i < L - c by omega] using hbit

/-- The value of the accumulator once the digit `d` of the bits from `c` to `c + k` is added to `A`, in integers. -/
theorem BoothInv.value_add (h : BoothInv M be c a q qm1) (hN : 0 < N) (hc : c + k ≤ L) {d : Int}
    (hd : IsDigit be c k d) :
    (a.toInt + M * d) * 2 ^ L + q.toNat =
      M * (be.extractLsb' 0 (c + k)).toInt * 2 ^ (L - c) + (be.toNat / 2 ^ c : Nat) := by
  have hvalue := h.value
  have hpow : (2 : Int) ^ (L - c) * 2 ^ c = 2 ^ L := pow_sub_mul_pow 2 (by omega)
  rw [toInt_append_of_pos hN] at hvalue
  rw [IsDigit] at hd
  rw [hd]
  linear_combination hvalue - M * d * hpow

/-- The bounds of a quotient by `R * C` from those of its dividend. -/
theorem bounds_of_mul_add_eq {t q P u R C B : Int} (h : t * (R * C) + q = P * R + u)
    (hq : 0 ≤ q) (hq' : q < R * C) (hu : 0 ≤ u) (hu' : u < R) (hP : -(B * C) < P) (hP' : P < B * C) :
    -B ≤ t ∧ t < B := by
  have hR : 0 ≤ R := hu.trans hu'.le
  have hRC : 0 ≤ R * C := hq.trans hq'.le
  constructor
  · by_contra hlow
    linarith [mul_nonneg hRC (show 0 ≤ -B - 1 - t by omega), mul_nonneg hR (show 0 ≤ P + B * C by omega)]
  · by_contra hhigh
    linarith [mul_nonneg hRC (show 0 ≤ t - B by omega), mul_nonneg hR (show 0 ≤ B * C - P - 1 by omega)]

/-- The guard bits keep the sum of a step from overflowing. -/
theorem BoothInv.toInt_sum (h : BoothInv M be c a q qm1) (hN : 0 < N) (hM : M.natAbs < 2 ^ N)
    (hk : 0 < k) (hc : c + k ≤ L) {d : Int} (hd : IsDigit be c k d) :
    (sext (N + k) a + BitVec.ofInt (N + k) (M * d)).toInt = a.toInt + M * d := by
  have hvalue := h.value_add hN hc hd
  have hq : (q.toNat : Int) < 2 ^ L := by exact_mod_cast q.isLt
  have hunread : ((be.toNat / 2 ^ c : Nat) : Int) < 2 ^ (L - c) := by
    exact_mod_cast toNat_div_two_pow_lt be (by omega)
  have hproduct := abs_mul_toInt_lt hM (by omega) (be.extractLsb' 0 (c + k))
  rw [show N + (c + k) - 1 = N + k - 1 + c by omega, pow_add, abs_lt] at hproduct
  obtain ⟨hneg, hpos⟩ := hproduct
  rw [← pow_sub_mul_pow 2 (show c ≤ L by omega)] at hvalue hq
  obtain ⟨hlow, hhigh⟩ :=
    bounds_of_mul_add_eq hvalue (by positivity) hq (by positivity) hunread hneg hpos
  rw [sext, BitVec.signExtend, ← BitVec.ofInt_add, BitVec.toInt_ofInt_eq_self (by omega) hlow hhigh]

/-- One step: the digit `d` of the `k` bits read is added to `A`, and the whole is shifted right by `k`. -/
theorem BoothInv.step (h : BoothInv M be c a q qm1) (hN : 0 < N) (hM : M.natAbs < 2 ^ N)
    (hk : 0 < k) (hc : c + k ≤ L) {d : Int} (hd : IsDigit be c k d)
    {t : BitVec (N + k)} (ht : t = sext (N + k) a + BitVec.ofInt (N + k) (M * d)) :
    BoothInv M be (c + k) (t.extractLsb' k N) ((t ++ q).extractLsb' k L) (be.getLsbD (c + k - 1)) where
  value := by
    have hshift : t.extractLsb' k N ++ (t ++ q).extractLsb' k L = (t ++ q).extractLsb' k (N + L) := by
      rw [← BitVec.extractLsb'_append_extractLsb'_eq_extractLsb' (x := t ++ q) (start₂ := k + L) rfl,
        BitVec.extractLsb'_append_eq_of_le (Nat.le_add_left L k), Nat.add_sub_cancel]
    have hpow : (2 : Int) ^ (L - c) = 2 ^ (L - (c + k)) * 2 ^ k := by
      rw [Nat.sub_add_eq, pow_sub_mul_pow 2 (by omega)]
    rw [hshift, toInt_extractLsb'_top _ (by omega) (by omega), toInt_append_of_pos (by omega), ht,
      h.toInt_sum hN hM hk hc hd, h.value_add hN hc hd, hpow, ← mul_assoc, add_comm,
      Int.add_mul_ediv_right _ _ (by positivity), add_comm, pow_add 2 c k, ← Nat.div_div_eq_div_mul]
    push_cast
    rfl
  lastRead := (bitBelow_of_pos be (by omega)).symm

/-! ### The finished accumulator (41_multipliers R117, R127) -/

theorem val_eq_toInt_add {w : Nat} (m : Mode) (v : BitVec w) :
    val m v = v.toInt + if !m.bit && v.msb then 2 ^ w else 0 := by
  cases m with
  | unsigned => rw [val_unsigned, BitVec.toInt_eq_msb_cond]; cases v.msb <;> simp [Mode.bit]
  | signed => simp [Mode.bit]

theorem ofInt_append {N L : Nat} (x : Int) (y : BitVec L) :
    BitVec.ofInt N x ++ y = BitVec.ofInt (N + L) (x * 2 ^ L + y.toNat) := by
  have happend : (BitVec.ofInt N x ++ y).toNat = (BitVec.ofInt N x).toNat * 2 ^ L + y.toNat := by
    rw [BitVec.toNat_append, ← Nat.shiftLeft_add_eq_or_of_lt y.isLt, Nat.shiftLeft_eq]
  have hlt : ((BitVec.ofInt N x ++ y).toNat : Int) < 2 ^ (N + L) := by
    exact_mod_cast (BitVec.ofInt N x ++ y).isLt
  have hsplit : x * 2 ^ L + y.toNat = (BitVec.ofInt N x ++ y).toNat + 2 ^ (N + L) * (x / 2 ^ N) := by
    rw [happend, pow_add]
    push_cast [toNat_ofInt_eq_emod]
    linear_combination -2 ^ L * Int.emod_add_mul_ediv x (2 ^ N)
  apply BitVec.eq_of_toNat_eq
  zify
  rw [toNat_ofInt_eq_emod, hsplit, Int.add_mul_emod_self_left, Int.emod_eq_of_lt (by positivity) hlt]

/-- The closing add puts one more multiplicand above the accumulator's lower part. -/
theorem closingAdd_append (hN : 0 < N) (m : Mode) (opa : Word N) :
    closingAdd m opa a qm1 ++ q = BitVec.ofInt (N + L)
      ((a ++ q).toInt + val m opa * if !m.bit && qm1 then 2 ^ L else 0) := by
  rw [closingAdd]
  split
  · have hsum : a + opa = BitVec.ofInt N (a.toInt + val m opa) := by
      rw [BitVec.ofInt_add, BitVec.ofInt_toInt]
      exact congrArg (a + ·) (fromInt_val m opa).symm
    rw [hsum, ofInt_append, toInt_append_of_pos hN]
    congr 1
    ring
  · rw [mul_zero, add_zero, BitVec.ofInt_toInt]

/-- Once the whole multiplier is read, the closing add completes the product under the mode. -/
theorem BoothInv.product {m : Mode} {opa : Word N} (h : BoothInv (val m opa) be L a q qm1)
    (hN : 0 < N) :
    closingAdd m opa a qm1 ++ q = BitVec.ofInt (N + L) (val m opa * val m be) := by
  have hread : be.toNat / 2 ^ L = 0 := Nat.div_eq_of_lt be.isLt
  rw [closingAdd_append hN, h.value, h.lastRead, bitBelow_width, hread, val_eq_toInt_add m be,
    BitVec.extractLsb'_eq_self, Nat.sub_self]
  congr 1
  push_cast
  ring

end Booth

/-! ### MUL.BOOTH2 (41_multipliers R114, R118) -/

section Booth2
variable {N : Nat} (m : Mode) (a b : Word N)

/-- The digit of a window is the bit below it less its own bit. -/
theorem booth2Sum_eq (me : BitVec (N + 1)) (q0 qm1 : Bool) :
    booth2Sum me a q0 qm1 = sext (N + 1) a + me * BitVec.ofInt (N + 1) (qm1.toNat - q0.toNat) := by
  cases q0 <;> cases qm1 <;> simp [booth2Sum, BitVec.ofInt_neg, BitVec.sub_eq_add_neg]

theorem iterate_booth2Step_me (j : Nat) :
    (iterate Booth2Regs.step j (Booth2Regs.start m a b)).me = ext (N + 1) m a := by
  induction j with
  | zero => rfl
  | succ j ih => exact ih

theorem booth2_boothInv {j : Nat} (hN : 0 < N) (hj : j ≤ N) :
    BoothInv (val m a) b j (iterate Booth2Regs.step j (Booth2Regs.start m a b)).a
      (iterate Booth2Regs.step j (Booth2Regs.start m a b)).q
      (iterate Booth2Regs.step j (Booth2Regs.start m a b)).qm1 := by
  induction j with
  | zero => exact boothInv_start hN (val m a) b
  | succ j ih =>
    have hinv := ih (by omega)
    rw [iterate_succ]
    generalize hr : iterate Booth2Regs.step j (Booth2Regs.start m a b) = r at hinv
    have hme : r.me = ext (N + 1) m a := hr ▸ iterate_booth2Step_me m a b j
    have hbit : r.q.getLsbD 0 = b.getLsbD j := hinv.getLsbD_eq hN hj
    have hsum : booth2Sum r.me r.a (r.q.getLsbD 0) r.qm1 = sext (N + 1) r.a +
        BitVec.ofInt (N + 1) (val m a * ((bitBelow b j).toNat - (b.getLsbD j).toNat)) := by
      rw [booth2Sum_eq, hme, hbit, hinv.lastRead, ext_mul_ofInt m a (by omega)]
    have hstep := hinv.step hN (natAbs_val_lt m a) Nat.one_pos hj (isDigit_radix2 b j) hsum
    rw [Nat.add_sub_cancel, ← hbit] at hstep
    exact hstep

theorem booth2Run_product (hN : 0 < N) :
    (booth2Run m a b).product m a = BitVec.ofInt (N + N) (val m a * val m b) :=
  (booth2_boothInv m a b hN le_rfl).product hN

theorem opOutcome_mulBooth2 (hN : 0 < N) : opOutcome (.mulBooth2 m) a b = productOutcome m a b := by
  rw [opOutcome, mulBooth2Outcome, booth2Run_product m a b hN, productOutcome]

end Booth2

/-! ### MUL.BOOTH4 (41_multipliers R122, R124, R128, R129) -/

theorem val_ext_of_le {w n : Nat} (m : Mode) (v : BitVec w) (h : w ≤ n) : val m (ext n m v) = val m v := by
  cases m with
  | unsigned => simp [ext, zext, BitVec.toNat_setWidth_of_le h]
  | signed => simp [ext, sext, BitVec.toInt_signExtend_of_le h]

theorem setWidth_ofInt {n k : Nat} (h : k ≤ n) (x : Int) :
    (BitVec.ofInt n x).setWidth k = BitVec.ofInt k x := by
  apply BitVec.eq_of_toNat_eq
  zify
  rw [BitVec.toNat_setWidth, Int.natCast_emod, toNat_ofInt_eq_emod, toNat_ofInt_eq_emod]
  push_cast
  exact Int.emod_emod_of_dvd x (pow_dvd_pow 2 h)

theorem le_booth4Len (N : Nat) : N ≤ booth4Len N := by
  rw [booth4Len, booth4Steps]
  omega

section Booth4
variable {N : Nat} (m : Mode) (a b : Word N)

theorem iterate_booth4Step_me (j : Nat) :
    (iterate Booth4Regs.step j (Booth4Regs.start m a b)).me = ext (N + 2) m a := by
  induction j with
  | zero => rfl
  | succ j ih => exact ih

theorem booth4_boothInv {j : Nat} (hN : 0 < N) (hj : j ≤ booth4Steps N) :
    BoothInv (val m a) (ext (booth4Len N) m b) (2 * j)
      (iterate Booth4Regs.step j (Booth4Regs.start m a b)).a
      (iterate Booth4Regs.step j (Booth4Regs.start m a b)).q
      (iterate Booth4Regs.step j (Booth4Regs.start m a b)).qm1 := by
  induction j with
  | zero => exact boothInv_start hN (val m a) (ext (booth4Len N) m b)
  | succ j ih =>
    have hinv := ih (by omega)
    have hlen : 2 * j + 2 ≤ booth4Len N := Nat.mul_le_mul_left 2 hj
    rw [iterate_succ]
    generalize hr : iterate Booth4Regs.step j (Booth4Regs.start m a b) = r at hinv
    have hme : r.me = ext (N + 2) m a := hr ▸ iterate_booth4Step_me m a b j
    generalize ext (booth4Len N) m b = be at hinv ⊢
    have hbit0 : r.q.getLsbD 0 = be.getLsbD (2 * j) := hinv.getLsbD_eq hN (by omega)
    have hbit1 : r.q.getLsbD 1 = be.getLsbD (2 * j + 1) := hinv.getLsbD_eq hN (by omega)
    have hsum : sext (N + 2) r.a +
          digitTimes (boothDigit (r.q.getLsbD 1) (r.q.getLsbD 0) r.qm1) r.me =
        sext (N + 2) r.a + BitVec.ofInt (N + 2) (val m a *
          digitValue (be.getLsbD (2 * j + 1)) (be.getLsbD (2 * j)) (bitBelow be (2 * j))) := by
      rw [digitTimes_boothDigit, hme, hbit0, hbit1, hinv.lastRead, ext_mul_ofInt m a (by omega)]
    have hstep := hinv.step hN (natAbs_val_lt m a) Nat.two_pos hlen (isDigit_radix4 be _) hsum
    rw [show 2 * j + 2 - 1 = 2 * j + 1 from rfl, ← hbit1] at hstep
    exact hstep

theorem booth4Run_product (hN : 0 < N) :
    (booth4Run m a b).product m a = BitVec.ofInt (N + N) (val m a * val m b) := by
  have happend := (booth4_boothInv m a b hN le_rfl).product hN
  rw [val_ext_of_le m b (le_booth4Len N)] at happend
  rw [Booth4Regs.product, booth4Run, happend, setWidth_ofInt (Nat.add_le_add_left (le_booth4Len N) N)]

theorem opOutcome_mulBooth4 (hN : 0 < N) : opOutcome (.mulBooth4 m) a b = productOutcome m a b := by
  rw [opOutcome, mulBooth4Outcome, booth4Run_product m a b hN, productOutcome]

end Booth4

/-! ### The statements -/

/-- Settles O16: the registers after `j` steps are the partial sum and the two shifted operands. -/
theorem mulSeqStepInvariant : Obligations.MulSeqStepInvariant := by
  intro N m a b j hj
  rw [iterate_seqStep]
  exact ⟨toNat_partialSum _ _ hj, toNat_shl_zext _ hj, Nat.shiftRight_eq_div_pow _ _⟩

/-- Settles O17: the completing operation records the outcome of `MUL.SEQ`. -/
theorem mulSeqWritesProduct : Obligations.MulSeqWritesProduct :=
  fun m _ a b ha hb => ⟨by cases m <;> rfl, exec_of_productOutcome ha hb (opOutcome_mulSeq m a b)⟩

/-- Settles O18: both multipliers end with the sum of all `N` partial products. -/
theorem naivePartialProductsAreThoseOfMulSeq : Obligations.NaivePartialProductsAreThoseOfMulSeq := by
  intro N m a b
  refine ⟨?_, by rw [naiveRun_sum, seqRun_acc]⟩
  rw [naiveRun_eq, List.map_map]
  exact List.map_congr_left fun i hi => toNat_partialProduct _ _ (List.mem_range.mp hi).le

/-- Settles O19: the completing operation records the outcome of `MUL.NAIVE`. -/
theorem mulNaiveWritesProduct : Obligations.MulNaiveWritesProduct :=
  fun m _ a b ha hb => ⟨by cases m <;> rfl, exec_of_productOutcome ha hb (opOutcome_mulNaive m a b)⟩

/-- Settles O20, by the accumulator's invariant for one bit a step. -/
theorem mulBooth2StepInvariant : Obligations.MulBooth2StepInvariant := by
  intro N m a b j hpos hj
  have hN : 0 < N := hpos.trans hj
  have hinv := booth2_boothInv m a b hN hj
  exact ⟨hinv.toInt_top hN hj, hinv.unread hN hj, hinv.lastRead.trans (bitBelow_of_pos b hpos)⟩

/-- Settles O21: the completing operation records the outcome of `MUL.BOOTH2`. -/
theorem mulBooth2WritesProduct : Obligations.MulBooth2WritesProduct :=
  fun m s a b ha hb => ⟨by cases m <;> rfl,
    exec_of_productOutcome ha hb (opOutcome_mulBooth2 m a b s.width.pos)⟩

/-- Settles O22: each digit by its window, and the sum by induction on the number of windows. -/
theorem boothDigitsRecodeTheMultiplier : Obligations.BoothDigitsRecodeTheMultiplier := by
  refine ⟨fun x2 x1 x0 w me => digitTimes_boothDigit x2 x1 x0 me, fun w K be me => ?_⟩
  rw [sum_digitTimes, BitVec.extractLsb'_eq_self]

/-- Settles O23, by the accumulator's invariant for two bits a step. -/
theorem mulBooth4StepInvariant : Obligations.MulBooth4StepInvariant := by
  intro N m a b j hpos hj
  have hN : 0 < N := by
    rw [booth4Steps] at hj
    omega
  have hlen : 2 * j ≤ booth4Len N := Nat.mul_le_mul_left 2 hj
  have hinv := booth4_boothInv m a b hN hj
  exact ⟨hinv.toInt_top hN hlen, hinv.unread hN hlen,
    hinv.lastRead.trans (bitBelow_of_pos _ (by omega))⟩

/-- Settles O24: the completing operation records the outcome of `MUL.BOOTH4`. -/
theorem mulBooth4WritesProduct : Obligations.MulBooth4WritesProduct :=
  fun m s a b ha hb => ⟨by cases m <;> rfl,
    exec_of_productOutcome ha hb (opOutcome_mulBooth4 m a b s.width.pos)⟩

/-- Settles O25: the four outcomes are one, and the true product fits the `2N` bits that hold it. -/
theorem productLawOfAllMultipliers : Obligations.ProductLawOfAllMultipliers := by
  intro N m a b hN i hi
  have hproduct : opOutcome i a b = productOutcome m a b := by
    simp only [List.mem_cons, List.not_mem_nil, or_false] at hi
    obtain rfl | rfl | rfl | rfl := hi
    · exact opOutcome_mulSeq m a b
    · exact opOutcome_mulNaive m a b
    · exact opOutcome_mulBooth2 m a b hN
    · exact opOutcome_mulBooth4 m a b hN
  refine ⟨_, _, hproduct.trans (productOutcome_eq hN m a b), ?_,
    val_ofInt_of_fits (by omega) (fits_product hN m a b)⟩
  rw [two_mul, toNat_ofInt_eq_emod]

/-- Settles O26: the four complete with one outcome on held operands, and so with one answer on every state. -/
theorem multipliersAgree : Obligations.MultipliersAgree := by
  intro m s
  have hagree {i : Instr} (h : ∀ a b : Word s.width.bits, opOutcome i a b = productOutcome m a b) :
      exec i s = exec (.mulSeq m) s := by
    rw [exec_eq_complete, exec_eq_complete]
    exact congrArg s.complete (funext₂ fun a b => (h a b).trans (opOutcome_mulSeq m a b).symm)
  exact ⟨hagree (opOutcome_mulNaive m), hagree fun a b => opOutcome_mulBooth2 m a b s.width.pos,
    hagree fun a b => opOutcome_mulBooth4 m a b s.width.pos⟩

end Sys2Proof.Machine

/-! PROOFS, family 42_dividers: the loop of DIV.REST against the library's shift subtractor, DIV.NREST against the
same loop, and the sign fix-up against integer division rounded toward zero. -/
namespace Sys2Proof.Machine

/-! ### Shifting a bit in (42_dividers R147, R152) -/

/-- The pair `{X, Q}` shifted left by one: the upper word takes in the top bit of the lower one. -/
theorem extractLsb'_append_eq_shiftConcat {N w : Nat} (hN : 0 < N) (x : BitVec w) (q : BitVec N) :
    (x ++ q).extractLsb' (N - 1) w = x.shiftConcat q.msb := by
  refine BitVec.eq_of_getLsbD_eq fun i hi => ?_
  rw [BitVec.getLsbD_extractLsb', BitVec.getLsbD_append, BitVec.getLsbD_shiftConcat, BitVec.msb_eq_getLsbD_last]
  rcases i with _ | i
  · simp [hN]
  · rw [if_neg (by omega), if_neg i.succ_ne_zero, show N - 1 + (i + 1) - N = i by omega]
    rfl

theorem shl_one_eq_shiftConcat {w : Nat} (q : BitVec w) : shl q 1 = q.shiftConcat false := by
  refine BitVec.eq_of_getLsbD_eq fun i hi => ?_
  rcases i with _ | i <;> simp [shl, hi]

theorem shl_one_or_one_eq_shiftConcat {w : Nat} (q : BitVec w) :
    shl q 1 ||| 1#w = q.shiftConcat true := by
  refine BitVec.eq_of_getLsbD_eq fun i hi => ?_
  rcases i with _ | i <;> simp [shl, hi]

theorem shiftConcat_eq_add {w : Nat} (x : BitVec w) (b : Bool) :
    x.shiftConcat b = x + x + (BitVec.ofBool b).setWidth w := by
  apply BitVec.eq_of_toNat_eq
  simp [Nat.shiftLeft_eq, Nat.mul_two]

/-- Where the shift loses no bit it may be done at a greater width. -/
theorem zext_shiftConcat {w n k : Nat} {x : BitVec w} (b : Bool) (hk : k < w) (hx : x.toNat < 2 ^ k)
    (hw : w ≤ n) : zext n (x.shiftConcat b) = (zext n x).shiftConcat b := by
  have hwide : (zext n x).toNat = x.toNat := BitVec.toNat_setWidth_of_le hw
  apply BitVec.eq_of_toNat_eq
  rw [BitVec.toNat_shiftConcat_eq_of_lt (hk.trans_le hw) (hwide.trans_lt hx), hwide, zext,
    BitVec.toNat_setWidth_of_le hw, BitVec.toNat_shiftConcat_eq_of_lt hk hx]

/-! ### The trial difference (42_dividers R147) -/

section Difference
variable {N : Nat}

theorem zext_sub_zext (n : Nat) (x y : Word N) :
    zext n x - zext n y = BitVec.ofInt n (x.toNat - y.toNat) := by
  have hofInt (v : Word N) : zext n v = BitVec.ofInt n v.toNat := by
    rw [BitVec.ofInt_natCast, zext, BitVec.ofNat_toNat]
  rw [hofInt, hofInt, BitVec.sub_eq_add_neg, ← BitVec.ofInt_neg, ← BitVec.ofInt_add]
  rfl

/-- One bit more than the operands have holds every difference. -/
theorem toInt_zext_sub_zext (x y : Word N) :
    (zext (N + 1) x - zext (N + 1) y).toInt = x.toNat - y.toNat := by
  have hx : (x.toNat : Int) < 2 ^ N := by exact_mod_cast x.isLt
  have hy : (y.toNat : Int) < 2 ^ N := by exact_mod_cast y.isLt
  rw [zext_sub_zext, BitVec.toInt_ofInt_eq_self N.succ_pos] <;> rw [Nat.succ_sub_one] <;> omega

/-- The top bit of a trial difference is the borrow. -/
theorem getLsbD_zext_sub_zext (x y : Word N) :
    (zext (N + 1) x - zext (N + 1) y).getLsbD N = decide (x < y) := by
  have hmsb : (zext (N + 1) x - zext (N + 1) y).msb = decide ((x.toNat : Int) - y.toNat < 0) := by
    rw [BitVec.msb_eq_toInt, toInt_zext_sub_zext]
  rw [BitVec.msb_eq_getLsbD_last, Nat.add_sub_cancel] at hmsb
  exact hmsb.trans (decide_eq_decide.mpr (by rw [BitVec.lt_def]; omega))

theorem setWidth_zext_sub_zext (x y : Word N) :
    (zext (N + 1) x - zext (N + 1) y).setWidth N = x - y := by
  have hself (v : Word N) : zext N v = v := BitVec.setWidth_eq v
  rw [zext_sub_zext, setWidth_ofInt N.le_succ, ← zext_sub_zext, hself, hself]

theorem zext_sub_of_le {x y : Word N} (h : y ≤ x) :
    zext (N + 1) (x - y) = zext (N + 1) x - zext (N + 1) y := by
  apply BitVec.eq_of_toInt_eq
  rw [toInt_zext_sub_zext, toInt_zext_of_lt _ N.lt_succ_self, BitVec.toNat_sub_of_le h,
    Nat.cast_sub (BitVec.le_def.mp h)]

end Difference

/-! ### The division loop of the library (42_dividers R149)

`BitVec.divSubtractShift` is one round of restoring division; its state holds the quotient bits and the partial
remainder, and `BitVec.DivModState.Lawful` says what they are. Both dividers are tied to it step by step. -/

section ShiftSubtract
variable {N : Nat} (n d : Word N)

/-- `j` rounds of the library's shift subtractor on the dividend `n` and the divisor `d`. -/
def shiftSubtract (j : Nat) : BitVec.DivModState N :=
  iterate (BitVec.divSubtractShift ⟨n, d⟩) j (.init N)

/-- The dividend's next bit. -/
def nextBit (st : BitVec.DivModState N) : Bool := n.getLsbD (st.wn - 1)

/-- The partial remainder with the dividend's next bit shifted in. -/
def shiftedRem (st : BitVec.DivModState N) : Word N := st.r.shiftConcat (nextBit n st)

/-- The trial difference of a step, one bit wider than the operands. -/
def trialDiff (st : BitVec.DivModState N) : BitVec (N + 1) :=
  zext (N + 1) (shiftedRem n st) - zext (N + 1) d

/-- The register `Q` of both dividers: the dividend bits not yet read above the quotient bits. -/
def quotientReg (st : BitVec.DivModState N) : Word N := n <<< st.wr ||| st.q

theorem quotientReg_init : quotientReg n (.init N) = n := by simp [quotientReg, BitVec.DivModState.init]

/-- A round by its trial difference: the remainder is kept where that is negative, and replaced where not. -/
theorem divSubtractShift_eq (st : BitVec.DivModState N) :
    BitVec.divSubtractShift ⟨n, d⟩ st =
      { wn := st.wn - 1, wr := st.wr + 1
        q := st.q.shiftConcat (!(trialDiff n d st).getLsbD N)
        r := if (trialDiff n d st).getLsbD N then shiftedRem n st
          else (trialDiff n d st).setWidth N } := by
  rw [trialDiff, getLsbD_zext_sub_zext, setWidth_zext_sub_zext]
  by_cases h : shiftedRem n st < d
  · simp only [h, decide_true, if_true]
    exact if_pos h
  · simp only [h, decide_false, Bool.false_eq_true, if_false]
    exact if_neg h

variable {n d}

theorem wn_shiftSubtract (j : Nat) : (shiftSubtract n d j).wn = N - j := by
  induction j with
  | zero => rfl
  | succ j ih =>
    have hround : (shiftSubtract n d (j + 1)).wn = (shiftSubtract n d j).wn - 1 := by
      rw [shiftSubtract, iterate_succ, divSubtractShift_eq]
      rfl
    rw [hround, ih, Nat.sub_sub]

theorem poised_of_lawful {j : Nat} (h : (shiftSubtract n d j).Lawful ⟨n, d⟩) (hj : j < N) :
    (shiftSubtract n d j).Poised ⟨n, d⟩ :=
  { h with hwn_lt := by rw [wn_shiftSubtract]; omega }

theorem lawful_shiftSubtract (hd : 0#N < d) {j : Nat} (hj : j ≤ N) :
    (shiftSubtract n d j).Lawful ⟨n, d⟩ := by
  induction j with
  | zero => exact BitVec.DivModState.lawful_init _ hd
  | succ j ih => exact BitVec.lawful_divSubtractShift _ (poised_of_lawful (ih (by omega)) hj)

theorem wr_shiftSubtract (hd : 0#N < d) {j : Nat} (hj : j ≤ N) : (shiftSubtract n d j).wr = j := by
  have hsum := (lawful_shiftSubtract (n := n) hd hj).hwrn
  rw [wn_shiftSubtract] at hsum
  omega

theorem poised_shiftSubtract (hd : 0#N < d) {j : Nat} (hj : j < N) :
    (shiftSubtract n d j).Poised ⟨n, d⟩ :=
  poised_of_lawful (lawful_shiftSubtract hd hj.le) hj

/-- The partial quotient and remainder are those of the dividend's top `j` bits. -/
theorem div_mod_shiftSubtract (hd : 0#N < d) {j : Nat} (hj : j ≤ N) :
    n.toNat / 2 ^ (N - j) / d.toNat = (shiftSubtract n d j).q.toNat ∧
      n.toNat / 2 ^ (N - j) % d.toNat = (shiftSubtract n d j).r.toNat := by
  have hlawful := lawful_shiftSubtract (n := n) hd hj
  have hdiv := hlawful.hdiv
  rw [Nat.shiftRight_eq_div_pow, wn_shiftSubtract] at hdiv
  rw [Nat.div_mod_unique (BitVec.lt_def.mp hd)]
  exact ⟨by rw [hdiv, Nat.add_comm], hlawful.hrLtDivisor⟩

/-- A divider follows the library's loop if each of its steps follows one round. -/
theorem tracks_iterate {α : Type} {f : α → α} {tracks : α → BitVec.DivModState N → Prop} {x : α}
    (hd : 0#N < d) (hinit : tracks x (.init N))
    (hstep : ∀ y st, tracks y st → st.Poised ⟨n, d⟩ → tracks (f y) (BitVec.divSubtractShift ⟨n, d⟩ st))
    {j : Nat} (hj : j ≤ N) : tracks (iterate f j x) (shiftSubtract n d j) := by
  induction j with
  | zero => exact hinit
  | succ j ih => exact hstep _ _ (ih (Nat.le_of_succ_le hj)) (poised_shiftSubtract hd hj)

section Lawful
variable {st : BitVec.DivModState N}

theorem getLsbD_q_of_le (h : st.Lawful ⟨n, d⟩) {k : Nat} (hk : st.wr ≤ k) : st.q.getLsbD k = false :=
  Nat.testBit_lt_two_pow (h.hqWidth.trans_le (Nat.pow_le_pow_right (by decide) hk))

/-- The bit that leaves `Q` is the dividend's next one. -/
theorem msb_quotientReg (h : st.Poised ⟨n, d⟩) : (quotientReg n st).msb = nextBit n st := by
  have hwidths := h.hwrn
  have hleft := h.hwn_lt
  rw [BitVec.msb_eq_getLsbD_last, quotientReg, BitVec.getLsbD_or, getLsbD_q_of_le h.toLawful (by omega),
    BitVec.getLsbD_shiftLeft, nextBit, show N - 1 - st.wr = st.wn - 1 by omega]
  simp [show N - 1 < N by omega, show ¬ N - 1 < st.wr by omega]

theorem toNat_low_quotientReg (h : st.Lawful ⟨n, d⟩) :
    ((quotientReg n st).extractLsb' 0 st.wr).toNat = st.q.toNat := by
  have hlow : (quotientReg n st).extractLsb' 0 st.wr = st.q.extractLsb' 0 st.wr := by
    refine BitVec.eq_of_getLsbD_eq fun i hi => ?_
    simp [quotientReg, hi]
  rw [hlow, BitVec.extractLsb'_toNat, Nat.shiftRight_zero, Nat.mod_eq_of_lt h.hqWidth]

theorem high_quotientReg (h : st.Lawful ⟨n, d⟩) :
    (quotientReg n st).extractLsb' st.wr st.wn = n.extractLsb' 0 st.wn := by
  have hwidths := h.hwrn
  refine BitVec.eq_of_getLsbD_eq fun i hi => ?_
  rw [BitVec.getLsbD_extractLsb', quotientReg, BitVec.getLsbD_or, getLsbD_q_of_le h (by omega)]
  simp [hi, show st.wr + i < N by omega, show i < N by omega]

/-- The shift of a step loses no bit of the partial remainder. -/
theorem zext_shiftedRem (h : st.Poised ⟨n, d⟩) :
    zext (N + 1) (shiftedRem n st) = (zext (N + 1) st.r).shiftConcat (nextBit n st) :=
  zext_shiftConcat _ (BitVec.DivModState.wr_lt_w h) h.hrWidth N.le_succ

end Lawful

/-- After `j` rounds the low `j` bits of `Q` are the quotient of the dividend's top `j` bits, and the others are the
dividend bits not yet read. -/
theorem quotientReg_shiftSubtract (hd : 0#N < d) {j : Nat} (hj : j ≤ N) :
    ((quotientReg n (shiftSubtract n d j)).extractLsb' 0 j).toNat = n.toNat / 2 ^ (N - j) / d.toNat ∧
      (quotientReg n (shiftSubtract n d j)).extractLsb' j (N - j) = n.extractLsb' 0 (N - j) := by
  have hlawful := lawful_shiftSubtract (n := n) hd hj
  have hlow := toNat_low_quotientReg hlawful
  have hhigh := high_quotientReg hlawful
  rw [wr_shiftSubtract hd hj] at hlow hhigh
  rw [wn_shiftSubtract] at hhigh
  exact ⟨hlow.trans (div_mod_shiftSubtract hd hj).1.symm, hhigh⟩

/-- Recording a quotient bit shifts `Q` as a whole. -/
theorem quotientReg_divSubtractShift (st : BitVec.DivModState N) :
    quotientReg n (BitVec.divSubtractShift ⟨n, d⟩ st) =
      (quotientReg n st).shiftConcat (!(trialDiff n d st).getLsbD N) := by
  rw [divSubtractShift_eq]
  refine BitVec.eq_of_getLsbD_eq fun i hi => ?_
  simp only [quotientReg, BitVec.getLsbD_or, BitVec.getLsbD_shiftConcat, BitVec.getLsbD_shiftLeft]
  rcases i with _ | i
  · simp
  · simp [hi, Nat.lt_of_succ_lt hi]

end ShiftSubtract

/-- The magnitude of a divisor that is not zero is not zero (42_dividers R142). -/
theorem mag_pos {N : Nat} (m : Mode) {b : Word N} (hb : b ≠ 0#N) : 0#N < mag m b := by
  have hne : mag m b ≠ 0#N := by
    rw [mag]
    split
    · rw [neg_eq_bitVec_neg]
      simpa using hb
    · exact hb
  rw [BitVec.lt_def]
  exact Nat.pos_of_ne_zero fun h => hne (BitVec.eq_of_toNat_eq h)

/-! ### DIV.REST is the library's loop (42_dividers R147, R149) -/

section Restoring
variable {N : Nat}

/-- A step, given the remainder `r` shifted in and its trial difference `t`. -/
theorem RestRegs.step_eq {s : RestRegs N} {r : Word N} {t : BitVec (N + 1)}
    (hr : (s.r ++ s.q).extractLsb' (N - 1) N = r) (ht : zext (N + 1) r - zext (N + 1) s.d = t) :
    s.step = { s with
      r := if t.getLsbD N then r else t.setWidth N
      q := s.q.shiftConcat (!t.getLsbD N), t := some t, i := s.i + 1 } := by
  subst hr ht
  unfold RestRegs.step
  dsimp only
  rw [shl_one_or_one_eq_shiftConcat, shl_one_eq_shiftConcat]
  split
  · next hneg => simp only [hneg, Bool.not_true]
  · next hneg => simp only [hneg, Bool.not_false]

/-- The registers of `DIV.REST` hold the state `st` of the library's loop on `n` and `d`. -/
structure RestRegs.Tracks (s : RestRegs N) (n d : Word N) (st : BitVec.DivModState N) : Prop where
  r : s.r = st.r
  q : s.q = quotientReg n st
  d : s.d = d

variable {s : RestRegs N} {n d : Word N} {st : BitVec.DivModState N}

theorem RestRegs.Tracks.step_eq (h : s.Tracks n d st) (hp : st.Poised ⟨n, d⟩) :
    s.step = { s with
      r := (BitVec.divSubtractShift ⟨n, d⟩ st).r
      q := quotientReg n (BitVec.divSubtractShift ⟨n, d⟩ st)
      t := some (trialDiff n d st), i := s.i + 1 } := by
  have hN : 0 < N := Nat.zero_lt_of_lt (BitVec.DivModState.wr_lt_w hp)
  have hshift : (s.r ++ s.q).extractLsb' (N - 1) N = shiftedRem n st := by
    rw [extractLsb'_append_eq_shiftConcat hN, h.q, msb_quotientReg hp, h.r, shiftedRem]
  have htrial : zext (N + 1) (shiftedRem n st) - zext (N + 1) s.d = trialDiff n d st := by
    rw [h.d, trialDiff]
  rw [RestRegs.step_eq hshift htrial, quotientReg_divSubtractShift, divSubtractShift_eq, h.q]

theorem RestRegs.Tracks.step (h : s.Tracks n d st) (hp : st.Poised ⟨n, d⟩) :
    s.step.Tracks n d (BitVec.divSubtractShift ⟨n, d⟩ st) := by
  rw [h.step_eq hp]
  exact ⟨rfl, rfl, h.d⟩

theorem RestRegs.start_tracks (m : Mode) (a b : Word N) :
    (RestRegs.start m a b).Tracks (mag m a) (mag m b) (.init N) where
  r := rfl
  q := (quotientReg_init _).symm
  d := rfl

theorem rest_tracks (m : Mode) (a : Word N) {b : Word N} (hb : b ≠ 0#N) {j : Nat} (hj : j ≤ N) :
    (iterate RestRegs.step j (RestRegs.start m a b)).Tracks (mag m a) (mag m b)
      (shiftSubtract (mag m a) (mag m b) j) :=
  tracks_iterate (tracks := (RestRegs.Tracks · (mag m a) (mag m b) ·)) (mag_pos m hb)
    (RestRegs.start_tracks m a b) (fun _ _ h hp => h.step hp) hj

end Restoring

/-! ### DIV.NREST keeps the library's remainder up to one divisor (42_dividers R152, R154, R155) -/

section NonRestoring
variable {N : Nat}

theorem NrestRegs.step_r (s : NrestRegs N) : s.step.r =
    if s.r.getLsbD N then (s.r ++ s.q).extractLsb' (N - 1) (N + 1) + zext (N + 1) s.d
    else (s.r ++ s.q).extractLsb' (N - 1) (N + 1) - zext (N + 1) s.d := rfl

/-- The bit recorded says that the remainder after the step is not negative (42_dividers R153). -/
theorem NrestRegs.step_q (s : NrestRegs N) :
    s.step.q = s.q.shiftConcat (!s.step.r.getLsbD N) := by
  have hq : s.step.q = if s.step.r.getLsbD N then shl s.q 1 else shl s.q 1 ||| 1#N := rfl
  rw [hq, shl_one_or_one_eq_shiftConcat, shl_one_eq_shiftConcat]
  cases s.step.r.getLsbD N <;> rfl

/-- So the bit recorded tells the sign of the remainder. -/
theorem NrestRegs.step_sign (hN : 0 < N) (s : NrestRegs N) :
    s.step.r.getLsbD N = !s.step.q.getLsbD 0 := by
  rw [NrestRegs.step_q, BitVec.getLsbD_shiftConcat]
  simp [hN]

/-- The registers of `DIV.NREST` hold the state `st` of the library's loop on `n` and `d`; a remainder that is
negative is one divisor short. -/
structure NrestRegs.Tracks (s : NrestRegs N) (n d : Word N) (st : BitVec.DivModState N) : Prop where
  r : s.r = zext (N + 1) st.r - if s.r.getLsbD N then zext (N + 1) d else 0
  q : s.q = quotientReg n st
  d : s.d = d

variable {s : NrestRegs N} {n d : Word N} {st : BitVec.DivModState N}

/-- Adding after a negative remainder and subtracting after another come to one: both leave the trial difference
of `DIV.REST`. -/
theorem NrestRegs.Tracks.step_r (h : s.Tracks n d st) (hp : st.Poised ⟨n, d⟩) :
    s.step.r = trialDiff n d st := by
  have hN : 0 < N := Nat.zero_lt_of_lt (BitVec.DivModState.wr_lt_w hp)
  have hr := h.r
  rw [NrestRegs.step_r, extractLsb'_append_eq_shiftConcat hN, h.q, msb_quotientReg hp, h.d, trialDiff,
    zext_shiftedRem hp, shiftConcat_eq_add, shiftConcat_eq_add]
  cases hneg : s.r.getLsbD N with
  | true =>
    simp only [hneg, if_true] at hr ⊢
    linear_combination 2 * hr
  | false =>
    simp only [hneg, Bool.false_eq_true, if_false] at hr ⊢
    linear_combination 2 * hr

/-- A trial difference is the remainder that its round leaves, less one divisor where it is negative. -/
theorem trialDiff_eq_zext_sub (n d : Word N) (st : BitVec.DivModState N) :
    trialDiff n d st = zext (N + 1) (BitVec.divSubtractShift ⟨n, d⟩ st).r -
      if (trialDiff n d st).getLsbD N then zext (N + 1) d else 0 := by
  rw [divSubtractShift_eq]
  cases hneg : (trialDiff n d st).getLsbD N with
  | true => rfl
  | false =>
    have hle : d ≤ shiftedRem n st := by
      rw [trialDiff, getLsbD_zext_sub_zext] at hneg
      exact BitVec.not_lt.mp (of_decide_eq_false hneg)
    simp only [Bool.false_eq_true, if_false, sub_zero]
    rw [trialDiff, setWidth_zext_sub_zext, zext_sub_of_le hle]

theorem NrestRegs.Tracks.step (h : s.Tracks n d st) (hp : st.Poised ⟨n, d⟩) :
    s.step.Tracks n d (BitVec.divSubtractShift ⟨n, d⟩ st) where
  r := by
    rw [h.step_r hp]
    exact trialDiff_eq_zext_sub n d st
  q := by rw [NrestRegs.step_q, h.step_r hp, h.q, quotientReg_divSubtractShift]
  d := h.d

theorem NrestRegs.start_tracks (m : Mode) (a b : Word N) :
    (NrestRegs.start m a b).Tracks (mag m a) (mag m b) (.init N) where
  r := by simp [BitVec.DivModState.init, NrestRegs.start, zext]
  q := (quotientReg_init _).symm
  d := rfl

theorem nrest_tracks (m : Mode) (a : Word N) {b : Word N} (hb : b ≠ 0#N) {j : Nat} (hj : j ≤ N) :
    (iterate NrestRegs.step j (NrestRegs.start m a b)).Tracks (mag m a) (mag m b)
      (shiftSubtract (mag m a) (mag m b) j) :=
  tracks_iterate (tracks := (NrestRegs.Tracks · (mag m a) (mag m b) ·)) (mag_pos m hb)
    (NrestRegs.start_tracks m a b) (fun _ _ h hp => h.step hp) hj

/-- The final correction gives back the remainder of the library's loop. -/
theorem NrestRegs.Tracks.corrected (h : s.Tracks n d st) : s.corrected = st.r := by
  have hadd : (if s.r.getLsbD N then s.r + zext (N + 1) d else s.r) = zext (N + 1) st.r := by
    rw [eq_add_of_sub_eq h.r.symm]
    split
    · rfl
    · exact (add_zero _).symm
  rw [NrestRegs.corrected, h.d, hadd, zext,
    BitVec.setWidth_setWidth_of_le _ N.le_succ, BitVec.setWidth_eq]

theorem NrestRegs.Tracks.toInt_r (h : s.Tracks n d st) :
    s.r.toInt = st.r.toNat - if s.r.getLsbD N then (d.toNat : Int) else 0 := by
  have hr := h.r
  cases hneg : s.r.getLsbD N with
  | true =>
    rw [hneg, if_pos rfl] at hr
    rw [hr, toInt_zext_sub_zext, if_pos rfl]
  | false =>
    rw [hneg, if_neg Bool.false_ne_true, sub_zero] at hr
    rw [hr, toInt_zext_of_lt _ N.lt_succ_self, if_neg Bool.false_ne_true, sub_zero]

end NonRestoring

/-! ### The finished loops (42_dividers R142, R149, R155) -/

section Finished
variable {N : Nat} (m : Mode) (a : Word N) {b : Word N}

/-- All rounds together divide. -/
theorem shiftSubtract_width {n d : Word N} (hd : 0#N < d) :
    (shiftSubtract n d N).q = n / d ∧ (shiftSubtract n d N).r = n % d := by
  have hlawful := lawful_shiftSubtract (n := n) hd le_rfl
  have hdone : (shiftSubtract n d N).wn = 0 := by rw [wn_shiftSubtract, Nat.sub_self]
  exact ⟨(BitVec.DivModState.udiv_eq_of_lawful hlawful hdone).symm,
    (BitVec.DivModState.umod_eq_of_lawful hlawful hdone).symm⟩

theorem quotientReg_width {n d : Word N} (hd : 0#N < d) :
    quotientReg n (shiftSubtract n d N) = n / d := by
  rw [quotientReg, wr_shiftSubtract hd le_rfl, BitVec.shiftLeft_eq_zero le_rfl, BitVec.zero_or,
    (shiftSubtract_width hd).1]

theorem restRun_eq (hb : b ≠ 0#N) :
    (restRun m a b).q = mag m a / mag m b ∧ (restRun m a b).r = mag m a % mag m b := by
  have htracks := rest_tracks m a hb le_rfl
  exact ⟨htracks.q.trans (quotientReg_width (mag_pos m hb)),
    htracks.r.trans (shiftSubtract_width (mag_pos m hb)).2⟩

theorem nrestRun_eq (hb : b ≠ 0#N) :
    (nrestRun m a b).q = mag m a / mag m b ∧ (nrestRun m a b).corrected = mag m a % mag m b := by
  have htracks := nrest_tracks m a hb le_rfl
  exact ⟨htracks.q.trans (quotientReg_width (mag_pos m hb)),
    htracks.corrected.trans (shiftSubtract_width (mag_pos m hb)).2⟩

end Finished

/-! ### The signed quotient and remainder (42_dividers R143, R144, R146)

In signed mode the fix-up of the signs is the library's `BitVec.sdiv` and `BitVec.srem`. -/

section Signs
variable {N : Nat} (a b : Word N)

theorem ofInt_toNat_tdiv : BitVec.ofInt N ((a.toNat : Int).tdiv b.toNat) = a / b := by
  rw [← Int.ofNat_tdiv, ← BitVec.toNat_udiv, BitVec.ofInt_natCast, BitVec.ofNat_toNat, BitVec.setWidth_eq]

theorem ofInt_toNat_tmod : BitVec.ofInt N ((a.toNat : Int).tmod b.toNat) = a % b := by
  rw [← Int.ofNat_tmod, ← BitVec.toNat_umod, BitVec.ofInt_natCast, BitVec.ofNat_toNat, BitVec.setWidth_eq]

theorem ofInt_toInt_tdiv : BitVec.ofInt N (a.toInt.tdiv b.toInt) = a.sdiv b :=
  BitVec.eq_of_toInt_eq (by rw [BitVec.toInt_ofInt, BitVec.toInt_sdiv])

theorem ofInt_toInt_tmod : BitVec.ofInt N (a.toInt.tmod b.toInt) = a.srem b := by
  rw [← BitVec.toInt_srem, BitVec.ofInt_toInt]

/-- The quotient of the magnitudes with its sign restored is the quotient rounded toward zero. -/
theorem negIf_mag_div_mag (m : Mode) :
    negIf (sgn m a ^^ sgn m b) (mag m a / mag m b) = BitVec.ofInt N ((val m a).tdiv (val m b)) := by
  cases m with
  | unsigned =>
    rw [val_unsigned, val_unsigned, ofInt_toNat_tdiv]
    simp [negIf, sgn, Mode.bit]
  | signed =>
    rw [val_signed, val_signed, ofInt_toInt_tdiv, BitVec.sdiv_eq]
    cases ha : a.msb <;> cases hb : b.msb <;>
      simp [negIf, sgn, Mode.bit, BitVec.abs_eq, neg_eq_bitVec_neg, ha, hb]

/-- The remainder of the magnitudes with the dividend's sign is the remainder of that quotient. -/
theorem negIf_mag_mod_mag (m : Mode) :
    negIf (sgn m a) (mag m a % mag m b) = BitVec.ofInt N ((val m a).tmod (val m b)) := by
  cases m with
  | unsigned =>
    rw [val_unsigned, val_unsigned, ofInt_toNat_tmod]
    simp [negIf, sgn, Mode.bit]
  | signed =>
    rw [val_signed, val_signed, ofInt_toInt_tmod, BitVec.srem_eq]
    cases ha : a.msb <;> cases hb : b.msb <;>
      simp [negIf, sgn, Mode.bit, BitVec.abs_eq, neg_eq_bitVec_neg, ha, hb]

end Signs

/-- The outcome of a divide whose divisor is not zero: remainder and quotient of the logical values. -/
def quotientOutcome {N : Nat} (m : Mode) (a b : Word N) : OpOutcome N :=
  .ok (BitVec.ofInt N ((val m a).tmod (val m b)) ++ BitVec.ofInt N ((val m a).tdiv (val m b)))
    (packFlags false (m.bit && a == BitVec.intMin N && b == BitVec.allOnes N)
      (m.bit && (BitVec.ofInt N ((val m a).tdiv (val m b))).msb)
      (BitVec.ofInt N ((val m a).tdiv (val m b)) == 0))

theorem minWord_eq_intMin (w : Nat) : minWord w = BitVec.intMin w :=
  BitVec.eq_of_toNat_eq (by rw [minWord, BitVec.toNat_ofNat, BitVec.toNat_intMin])

theorem divOutcome_eq {N : Nat} (m : Mode) (a b : Word N) :
    divOutcome m a b (mag m a / mag m b) (mag m a % mag m b) = quotientOutcome m a b := by
  rw [divOutcome, negIf_mag_div_mag, negIf_mag_mod_mag, divFlags, divOverflow, minWord_eq_intMin]
  rfl

section Outcomes
variable {N : Nat} (m : Mode) (a : Word N) {b : Word N}

theorem opOutcome_divRest (hb : b ≠ 0#N) : opOutcome (.divRest m) a b = quotientOutcome m a b := by
  obtain ⟨hq, hr⟩ := restRun_eq m a hb
  rw [opOutcome, divRestOutcome, if_neg (by simpa using hb), hq, hr, divOutcome_eq]

theorem opOutcome_divNrest (hb : b ≠ 0#N) : opOutcome (.divNrest m) a b = quotientOutcome m a b := by
  obtain ⟨hq, hr⟩ := nrestRun_eq m a hb
  rw [opOutcome, divNrestOutcome, if_neg (by simpa using hb), hq, hr, divOutcome_eq]

/-- The zero test comes before either loop. -/
theorem opOutcome_div_by_zero : ∀ i ∈ [Instr.divRest m, .divNrest m],
    opOutcome i a 0#N = .divisionByZero := by
  intro i hi
  obtain rfl | rfl := List.mem_pair.mp hi
  · rw [opOutcome, divRestOutcome, beq_self_eq_true, if_pos rfl]
  · rw [opOutcome, divNrestOutcome, beq_self_eq_true, if_pos rfl]

theorem opOutcome_div (hb : b ≠ 0#N) : ∀ i ∈ [Instr.divRest m, .divNrest m],
    opOutcome i a b = quotientOutcome m a b := by
  intro i hi
  obtain rfl | rfl := List.mem_pair.mp hi
  · exact opOutcome_divRest m a hb
  · exact opOutcome_divNrest m a hb

end Outcomes

/-! ### The division law and its one exception (42_dividers R144, R146) -/

section Law
variable {N : Nat} (m : Mode) (a b : Word N)

theorem val_ofInt_tmod :
    val m (BitVec.ofInt N ((val m a).tmod (val m b))) = (val m a).tmod (val m b) := by
  cases m with
  | unsigned => simp only [val_unsigned, ofInt_toNat_tmod, BitVec.toNat_umod, Int.ofNat_tmod]
  | signed => simp only [val_signed, ofInt_toInt_tmod, BitVec.toInt_srem]

/-- Every quotient but that of the most negative value by `-1` is representable. -/
theorem val_ofInt_tdiv (h : ¬ (m = .signed ∧ a = BitVec.intMin N ∧ b = BitVec.allOnes N)) :
    val m (BitVec.ofInt N ((val m a).tdiv (val m b))) = (val m a).tdiv (val m b) := by
  cases m with
  | unsigned => simp only [val_unsigned, ofInt_toNat_tdiv, BitVec.toNat_udiv, Int.ofNat_tdiv]
  | signed =>
    simp only [val_signed, ofInt_toInt_tdiv]
    refine BitVec.toInt_sdiv_of_ne_or_ne a b ?_
    rw [BitVec.neg_one_eq_allOnes]
    tauto

variable {m a b}

theorem overflow_eq_true_iff : (m.bit && a == BitVec.intMin N && b == BitVec.allOnes N) = true ↔
    m = .signed ∧ a = BitVec.intMin N ∧ b = BitVec.allOnes N := by
  cases m <;> simp [Mode.bit]

theorem natAbs_tmod_lt {x y : Int} (hy : y ≠ 0) : (x.tmod y).natAbs < y.natAbs := by
  rw [Int.natAbs_tmod]
  exact Nat.mod_lt _ (Int.natAbs_pos.mpr hy)

theorem tmod_eq_zero_or_sign (x y : Int) : x.tmod y = 0 ∨ (x.tmod y).sign = x.sign := by
  by_cases hdvd : y ∣ x
  · exact .inl (Int.tmod_eq_zero_of_dvd hdvd)
  · exact .inr (by rw [Int.sign_tmod, if_neg hdvd])

theorem val_ne_zero (hb : b ≠ 0#N) : val m b ≠ 0 := by
  intro h
  have hpos := mag_pos m hb
  rw [BitVec.lt_def, toNat_mag, h] at hpos
  exact absurd hpos (lt_irrefl _)

end Law

section Wrap
variable {N : Nat} (hN : 0 < N)
include hN

theorem toInt_allOnes_of_pos : (BitVec.allOnes N).toInt = -1 := by rw [BitVec.toInt_allOnes, if_pos hN]

theorem wrapped_quotient :
    BitVec.ofInt N ((BitVec.intMin N).toInt.tdiv (BitVec.allOnes N).toInt) = BitVec.intMin N := by
  rw [toInt_allOnes_of_pos hN, Int.tdiv_neg, Int.tdiv_one, BitVec.ofInt_neg, BitVec.ofInt_toInt,
    BitVec.neg_intMin]

theorem wrapped_remainder :
    BitVec.ofInt N ((BitVec.intMin N).toInt.tmod (BitVec.allOnes N).toInt) = 0#N := by
  rw [toInt_allOnes_of_pos hN, Int.tmod_neg, Int.tmod_one]
  rfl

theorem quotientOutcome_wrap : quotientOutcome .signed (BitVec.intMin N) (BitVec.allOnes N) =
    .ok (0#N ++ BitVec.intMin N) (packFlags false true true false) := by
  have hne : (BitVec.intMin N == 0) = false := by
    rw [beq_eq_false_iff_ne]
    intro h
    have hmsb : (BitVec.intMin N).msb = true := by rw [BitVec.msb_intMin, decide_eq_true hN]
    simp [h] at hmsb
  rw [quotientOutcome, val_signed, val_signed, wrapped_quotient hN, wrapped_remainder hN, BitVec.msb_intMin,
    decide_eq_true hN, hne]
  simp [Mode.bit]

end Wrap

/-! ### The statements -/

/-- Settles O27: the register `R` is the remainder of the library's loop, and `Q` its quotient below the unread bits. -/
theorem restoringStepInvariant : Obligations.RestoringStepInvariant := by
  intro N m a b j hb _ hj
  have hd := mag_pos m hb
  have htracks := rest_tracks m a hb hj
  rw [htracks.r, htracks.q]
  exact ⟨(div_mod_shiftSubtract hd hj).2.symm, quotientReg_shiftSubtract hd hj⟩

/-- Settles O28: the completing operation records the outcome of `DIV.REST`. -/
theorem divRestWritesQuotientAndRemainder : Obligations.DivRestWritesQuotientAndRemainder := by
  intro m s a b ha hob hb
  refine ⟨by cases m <;> rfl, ?_⟩
  rw [exec_of_held _ s ha hob, opOutcome_divRest m a hb]
  rfl

/-- Settles O30: the completing operation records the outcome of `DIV.NREST`. -/
theorem divNrestWritesQuotientAndRemainder : Obligations.DivNrestWritesQuotientAndRemainder := by
  intro m s a b ha hob hb
  refine ⟨by cases m <;> rfl, ?_⟩
  rw [exec_of_held _ s ha hob, opOutcome_divNrest m a hb]
  rfl

/-- Settles O29: `R` is the remainder of the same loop, less one divisor where the last quotient bit is 0. -/
theorem nonRestoringStepInvariant : Obligations.NonRestoringStepInvariant := by
  intro N m a b j hb hpos hj
  have hd := mag_pos m hb
  have htracks := nrest_tracks m a hb hj
  have hsign : (iterate NrestRegs.step j (NrestRegs.start m a b)).r.getLsbD N =
      !(iterate NrestRegs.step j (NrestRegs.start m a b)).q.getLsbD 0 := by
    obtain ⟨k, rfl⟩ := Nat.exists_eq_add_one.mpr hpos
    exact NrestRegs.step_sign (hpos.trans hj) _
  refine ⟨?_, by rw [htracks.q]; exact quotientReg_shiftSubtract hd hj⟩
  rw [htracks.toInt_r, hsign, (div_mod_shiftSubtract hd hj).2]
  cases (iterate NrestRegs.step j (NrestRegs.start m a b)).q.getLsbD 0 <;> rfl

/-- Settles O33: integer division rounded toward zero, whose quotient is representable unless `V` is 1. -/
theorem divisionLaw : Obligations.DivisionLaw := by
  intro N m a b hN hb i hi
  refine ⟨_, _, opOutcome_div m a hb i hi, ?_, ?_⟩
  · intro hv
    rw [flagV_packFlags, Bool.eq_false_iff, Ne, overflow_eq_true_iff] at hv
    rw [loHalf_append, hiHalf_append, val_ofInt_tmod, val_ofInt_tdiv m a b hv]
    exact ⟨rfl, (Int.tdiv_mul_add_tmod _ _).symm, natAbs_tmod_lt (val_ne_zero hb),
      tmod_eq_zero_or_sign _ _⟩
  · intro hv
    rw [flagV_packFlags, overflow_eq_true_iff] at hv
    obtain ⟨rfl, rfl, rfl⟩ := hv
    rw [loHalf_append, hiHalf_append, val_signed, val_signed, wrapped_quotient hN, wrapped_remainder hN,
      val_signed, val_signed, BitVec.toInt_intMin_of_pos hN, toInt_allOnes_of_pos hN]
    simp

/-- Settles O34: negating the most negative value wraps, and `V` names that pair of operands alone. -/
theorem mostNegativeByMinusOneWraps : Obligations.MostNegativeByMinusOneWraps := by
  refine ⟨fun s ha hob i hi => ?_, fun N m a b hN hb hne i hi => ?_⟩
  · have hb : BitVec.allOnes s.width.bits ≠ 0#s.width.bits := by
      intro h
      have hneg := toInt_allOnes_of_pos s.width.pos
      simp [h] at hneg
    rw [exec_of_held i s ha hob, opOutcome_div _ _ hb i hi, quotientOutcome_wrap s.width.pos]
    rfl
  · refine ⟨_, _, opOutcome_div m a hb i hi, ?_⟩
    rw [flagV_packFlags, Bool.eq_false_iff, Ne, overflow_eq_true_iff]
    exact hne

/-- Settles O35: both dividers follow one loop, and a step of either starts with its trial difference. -/
theorem dividersAgreeStepByStep : Obligations.DividersAgreeStepByStep := by
  intro N m a b j hb hpos hj
  refine ⟨(nrest_tracks m a hb hj).q.trans (rest_tracks m a hb hj).q.symm, ?_⟩
  obtain ⟨k, rfl⟩ := Nat.exists_eq_add_one.mpr hpos
  have hk := Nat.le_of_succ_le hj
  have hpoised := poised_shiftSubtract (n := mag m a) (mag_pos m hb) hj
  rw [iterate_succ, iterate_succ, (nrest_tracks m a hb hk).step_r hpoised,
    (rest_tracks m a hb hk).step_eq hpoised]

/-- Settles O36: on held operands both complete with one outcome, and so with one answer on every state. -/
theorem dividersAgree : Obligations.DividersAgree := by
  intro m s
  have hagree (a b : Word s.width.bits) : opOutcome (.divNrest m) a b = opOutcome (.divRest m) a b := by
    by_cases hb : b = 0#s.width.bits
    · rw [hb, opOutcome_div_by_zero m a _ (by simp), opOutcome_div_by_zero m a _ (by simp)]
    · rw [opOutcome_divNrest m a hb, opOutcome_divRest m a hb]
  rw [exec_eq_complete, exec_eq_complete]
  exact congrArg s.complete (funext₂ hagree)

/-- Settles O31: the zero test comes before any working register is initialised. -/
theorem divideByZeroFails : Obligations.DivideByZeroFails := by
  intro m s a ha hob i hi
  have hzero := opOutcome_div_by_zero m a i hi
  refine ⟨(startWork_eq_none_iff i a _).mpr hzero, ?_⟩
  rw [exec_of_held i s ha hob, hzero]
  rfl

end Sys2Proof.Machine

/-! PROOFS, family 60_exceptions: the widths that `configure` refuses, the two failures of an operation, and the
absence of any stop while the host keeps the rules. -/
namespace Sys2Proof.Machine

/-! ### InvalidConfig (60_exceptions R174) -/

theorem configure_eq_none_iff (width : Int) : configure width = none ↔ width < 1 := by
  unfold configure
  split
  · next hpos => exact iff_of_false (by simp) (by omega)
  · next hnot => exact iff_of_true rfl (by omega)

theorem bits_of_configure {width : Int} {n : Width} (h : configure width = some n) :
    (n.bits : Int) = width := by
  unfold configure at h
  split at h
  · next hpos => cases h; exact Int.toNat_of_nonneg (by omega)
  · cases h

/-! ### DivisionByZero (60_exceptions R171) -/

section DivideByZero
variable {N : Nat} {i : Instr} {b : Word N}

/-- The operation is a divide (of either kind, in its own mode) and its divisor is zero: the divider's zero test. -/
def DividesByZero (i : Instr) (b : Word N) : Prop :=
  (i = .divRest i.mode ∨ i = .divNrest i.mode) ∧ b = 0#N

theorem opOutcome_of_dividesByZero (h : DividesByZero i b) (a : Word N) :
    opOutcome i a b = .divisionByZero := by
  obtain ⟨hdiv, rfl⟩ := h
  exact opOutcome_div_by_zero i.mode a i (List.mem_pair.mpr hdiv)

/-- Where the zero test does not turn an operation away, it succeeds: no other failure exists at this level. -/
theorem opOutcome_of_not_dividesByZero (h : ¬ DividesByZero i b) (a : Word N) :
    ∃ res f, opOutcome i a b = .ok res f := by
  cases i with
  | add m | sub m | mulSeq m | mulNaive m | mulBooth2 m | mulBooth4 m => exact ⟨_, _, rfl⟩
  | divRest m => exact ⟨_, _, opOutcome_divRest m a fun hb => h ⟨.inl rfl, hb⟩⟩
  | divNrest m => exact ⟨_, _, opOutcome_divNrest m a fun hb => h ⟨.inr rfl, hb⟩⟩

end DivideByZero

/-! ### IllegalCommand (60_exceptions R172, 30_encoding R66) -/

/-- The low four bits of an encoding are the operation's code, whatever the mode. -/
theorem toNat_encode_mod (i : Instr) : (encode i).toNat % 16 = (opCode i).toNat := by
  have hlow : (encode i).setWidth 4 = opCode i := BitVec.setWidth_append_eq_right
  rw [← hlow, BitVec.toNat_setWidth]

/-- No operation has one of the codes of the reserved words. -/
theorem opCode_not_reserved (i : Instr) :
    (opCode i).toNat ∉ [0x2, 0x3, 0xA, 0xB, 0xC, 0xD, 0xE, 0xF] := by
  cases i <;> simp [opCode]

/-- A reserved word decodes to no operation, for it would be that operation's encoding. -/
theorem decode_of_reserved {c : CmdWord}
    (h : c.toNat % 16 ∈ [0x2, 0x3, 0xA, 0xB, 0xC, 0xD, 0xE, 0xF]) : ∃ e, decode c = .error e := by
  cases hd : decode c with
  | error e => exact ⟨e, rfl⟩
  | ok i =>
    rw [← encode_of_decode hd, toNat_encode_mod] at h
    exact absurd h (opCode_not_reserved i)

theorem startCommand_of_decode_error {N : Nat} {c : CmdWord} {e : DecodeError}
    (h : decode c = .error e) (a b : Word N) : startCommand c a b = none := by
  simp only [startCommand, h]

/-! ### No stop while the host keeps the rules (60_exceptions R170, 70_reset_and_hazards R192, R194) -/

theorem hostKeepsRules_iff (s : State) : hostKeepsRules s = true ↔
    s.sample.rst = true ∨ s.sample.start = false ∨ s.regs.busy = some false := by
  simp [hostKeepsRules, or_assoc]

section Progress
variable {N : Nat} {p : PortIn N} {r : Regs N}

/-- Without a reset or a request, a legal run-state stays, goes on or completes. -/
theorem HandshakeInv.exists_regStep_quiet (h : HandshakeInv r) (l : Latency) (hr : p.rst = false)
    (hs : p.start = false) : ∃ r', RegStep l p r r' := by
  by_cases hbusy : r.busy = some true
  · by_cases hl : r.edgesLeft ≤ 1
    · obtain ⟨c, a, b, hx⟩ := h.executes hbusy
      exact ⟨_, .complete hr hs hx hl⟩
    · exact ⟨_, .advance hr hs hbusy (Nat.lt_of_not_le hl)⟩
  · exact ⟨_, .stay hr hs hbusy⟩

/-- In a legal run-state every input that the host's rules allow has an edge. -/
theorem HandshakeInv.exists_regStep (h : HandshakeInv r) (l : Latency)
    (hrules : p.rst = true ∨ p.start = false ∨ r.busy = some false) : ∃ r', RegStep l p r r' := by
  cases hr : p.rst with
  | true => exact ⟨_, .reset hr⟩
  | false =>
    cases hs : p.start with
    | false => exact h.exists_regStep_quiet l hr hs
    | true => exact ⟨_, .accept hr hs (by simpa [hr, hs] using hrules)⟩

end Progress

/-! ### The statements -/

/-- Settles O32: the zero test decides between the only two outcomes an operation has. -/
theorem onlyDividesByZeroRaiseDivisionByZero : Obligations.OnlyDividesByZeroRaiseDivisionByZero := by
  intro N i a b
  by_cases h : DividesByZero i b
  · rw [opOutcome_of_dividesByZero h a]
    exact ⟨iff_of_true rfl h, by simp⟩
  · obtain ⟨res, f, hok⟩ := opOutcome_of_not_dividesByZero h a
    rw [hok]
    exact ⟨iff_of_false (by simp) h, by simp⟩

/-- Settles O47: the decoder rejects the word before the operands are looked at. -/
theorem reservedWordCompletesAsIllegalCommand : Obligations.ReservedWordCompletesAsIllegalCommand := by
  constructor
  · intro s c hr hs hbusy hl hc hreserved
    obtain ⟨e, hd⟩ := decode_of_reserved hreserved
    exact step_of_regStep s (.illegal hr hs hbusy hl c e hc hd)
  · intro N c a b hreserved
    obtain ⟨e, hd⟩ := decode_of_reserved hreserved
    exact ⟨startCommand_of_decode_error hd a b, outcome_of_reserved hd a b⟩

/-- Settles O55: such an edge exists, and what an edge can do, a step does. -/
theorem noStopWhileTheHostKeepsTheRules : Obligations.NoStopWhileTheHostKeepsTheRules := by
  intro s hi hrules
  obtain ⟨r, hstep⟩ := hi.exists_regStep s.latency ((hostKeepsRules_iff s).mp hrules)
  exact ⟨s.after r, step_of_regStep s hstep⟩

/-- Settles O1: the test on the width is on its natural part, which is positive exactly from 1 on. -/
theorem configureRefusesExactlyNonPositiveWidths :
    Obligations.ConfigureRefusesExactlyNonPositiveWidths :=
  fun width => ⟨configure_eq_none_iff width, fun _ => bits_of_configure⟩

end Sys2Proof.Machine

/-! PROOFS, family 70_reset_and_hazards: an edge that resets, one that refuses a request, and a running edge before
the completing one. -/
namespace Sys2Proof.Machine

/-- Settles O45: such an edge advances, and the working registers are what `Regs.advance` makes of them. -/
theorem runningEdgeKeepsAllButWorkingRegisters :
    Obligations.RunningEdgeKeepsAllButWorkingRegisters := by
  intro s hr hs hbusy hl
  have hstep : step s = .next (s.after s.regs.advance) :=
    step_of_regStep s (.advance hr hs hbusy hl)
  rw [Regs.advance_frame] at hstep
  exact ⟨s.regs.advance.work, hstep,
    fun _ _ _ hwork hc ha hb => Regs.advance_work_of_none hwork hc ha hb,
    fun _ hwork => Regs.advance_work_of_held hwork⟩

/-- Settles O40: `rst` is looked at before anything else, so the edge can only reset. -/
theorem resetEdgeResetsEveryState : Obligations.ResetEdgeResetsEveryState :=
  fun s hr => ⟨Regs.reset s.width.bits, step_of_regStep s (.reset hr), rfl, rfl, rfl, rfl, rfl, rfl,
    rfl, rfl, rfl, rfl, rfl⟩

/-- Settles O42: while `BUSY` is 1, `start` is looked at before the command in flight goes on. -/
theorem startWhileBusyIsRefused : Obligations.StartWhileBusyIsRefused := by
  intro s hr hs hbusy
  simp only [step, State.edge, hr, hs, hbusy, Bool.false_eq_true, if_false, if_true]

/-- Settles O43: only a reset edge gives `BUSY` a value, and until then no request is accepted. -/
theorem commandBeforeResetIsRefused : Obligations.CommandBeforeResetIsRefused := by
  intro s hr hs hbusy
  simp only [step, State.edge, hr, hs, hbusy, Bool.false_eq_true, if_false, if_true]

end Sys2Proof.Machine
